-- ==== Sys2Proof/Word.lean ====
section
/-! DEFINITION. The widths of the CORE (spec/00_scope.md R8): bytes, 16-bit registers, 4-bit register
indices and row counts, 12-bit address fields, and the display buffer of 64 x 32 cells. -/

namespace Sys2Proof

/-- A memory byte, a general register or a timer: an unsigned 8-bit value (R11, R21, R28). -/
abbrev Byte := BitVec 8

/-- A 16-bit word: an instruction word, `pc`, `I` or a stack entry (R24, R26, R27, R70). -/
abbrev Word := BitVec 16

/-- A 4-bit field: a register index x or y, or the row count n (R71). -/
abbrev Nibble := BitVec 4

/-- The 12-bit address field nnn (R71). -/
abbrev Addr := BitVec 12

/-- The display buffer, row-major, top row first: 32 rows of 64 one-bit cells; bit c of a row is the cell in
column c, so that cell (r, c) is bit `r * 64 + c` of the row-major view (R32). -/
abbrev Display := Vector (BitVec 64) 32

end Sys2Proof
end

