-- ==== Sys2Proof/Config.lean ====
section
/-! DEFINITION. What an implementation fixes (spec/00_scope.md R8, R9), and the model's free values: the
step inputs nobody has settled and the choice of a pressed key. -/

namespace Sys2Proof

/-- P_0XE_WILDCARD: what the 30 words 0x0XE0 and 0x0XEE with X ≠ 0 decode to (R9, R76). -/
inductive ZeroXE where
  | unknown   -- UnknownOpcode (the default)
  | clsRet    -- CLS and RET
  | sys       -- SYS
  deriving DecidableEq, Repr

/-- P_SKIP_N_WILDCARD: what 5XYn and 9XYn with n ≠ 0 decode to (R9, R77). -/
inductive SkipN where
  | unknown   -- UnknownOpcode (the default)
  | accept    -- the skip instruction
  deriving DecidableEq, Repr

/-- P_RESERVED_WRITE: what a write below 0x200 does (R9, R57). -/
inductive ReservedWrite where
  | fault     -- ReservedWrite (the default)
  | write     -- the bytes are set as anywhere else
  deriving DecidableEq, Repr

/-- The open parameters of R9 that decoding and execution read. `stackDepth = none` is UNBOUNDED. -/
structure Params where
  stackDepth : Option Nat
  zeroXE : ZeroXE
  skipN : SkipN
  reservedWrite : ReservedWrite
  deriving DecidableEq, Repr

namespace Config

/-- The default parameters of R9. -/
def defaults : Params :=
  { stackDepth := none, zeroXE := .unknown, skipN := .unknown, reservedWrite := .fault }

/-- MEM_SIZE: the number of bytes of memory, 0x000..0xFFF (R8, R30). -/
abbrev memSize : Nat := 0x1000

/-- The first address above the reserved region 0x000-0x1FF; also the reset pc (R8, R19, R57). -/
abbrev programStart : Nat := 0x200

/-- The longest program image: 0xE00 bytes (R8, R243). -/
abbrev maxImage : Nat := 0xE00

/-- The number of bytes of the built-in font: 16 glyphs of 5 bytes (R8, R31). -/
abbrev fontSize : Nat := 80

/-- FONT's default bytes, glyphs 0 to 7 (R31). -/
def fontLow : List Byte :=
  [0xF0, 0x90, 0x90, 0x90, 0xF0,  0x20, 0x60, 0x20, 0x20, 0x70,
   0xF0, 0x10, 0xF0, 0x80, 0xF0,  0xF0, 0x10, 0xF0, 0x10, 0xF0,
   0x90, 0x90, 0xF0, 0x10, 0x10,  0xF0, 0x80, 0xF0, 0x10, 0xF0,
   0xF0, 0x80, 0xF0, 0x90, 0xF0,  0xF0, 0x10, 0x20, 0x40, 0x40]

/-- FONT's default bytes, glyphs 8 to F (R31). -/
def fontHigh : List Byte :=
  [0xF0, 0x90, 0xF0, 0x90, 0xF0,  0xF0, 0x90, 0xF0, 0x10, 0xF0,
   0xF0, 0x90, 0xF0, 0x90, 0x90,  0xE0, 0x90, 0xE0, 0x90, 0xE0,
   0xF0, 0x80, 0x80, 0x80, 0xF0,  0xE0, 0x90, 0x90, 0x90, 0xE0,
   0xF0, 0x80, 0xF0, 0x80, 0xF0,  0xF0, 0x80, 0xF0, 0x80, 0x80]

/-- FONT's default: the byte of glyph d, row k is at index 5d + k (R31).
PRESUMED, by the spec itself ("from general knowledge, not in source"); unsafe: a claim about a glyph's
pixels rests on these bytes (notes/assumptions/6.md). -/
def font : List Byte := fontLow ++ fontHigh

/-- FREE VALUE: the pressed-key set of the step with this number, where the host has not settled it
(R15, R45). Safe: nothing constrains it (notes/assumptions/7.md). -/
opaque freeKeys : Nat → BitVec 16

/-- FREE VALUE: the random byte of the step with this number, where the host has not settled it
(R15, R46: "a free input of the step (a draw)"). Safe (notes/assumptions/7.md). -/
opaque freeRnd : Nat → Byte

/-- FREE VALUE: P_KEY_CHOICE before it is held to the key set (R9, R173: "any member"); the machine uses
it only where it names a member. Unsafe only where an implementation's choice depends on more than the set
(notes/assumptions/11.md). -/
opaque keyChoice : BitVec 16 → Nibble

end Config

end Sys2Proof
end

