-- ==== Sys2Proof/Syntax.lean ====
section
/-! DEFINITION. The instructions: one constructor per row of spec/opcode_table.json, in its order
(spec/30_encoding.md R78). -/

namespace Sys2Proof

/-- The closed set of 35 instructions (R74, R78), with the operand fields of R71. -/
inductive Instr where
  /-- 00E0 CLS (R152) -/
  | cls
  /-- 00EE RET (R102) -/
  | ret
  /-- 0nnn SYS nnn (R101) -/
  | sys (nnn : Addr)
  /-- 1nnn JP nnn (R103) -/
  | jp (nnn : Addr)
  /-- 2nnn CALL nnn (R104) -/
  | call (nnn : Addr)
  /-- 3xkk SE Vx, kk (R105) -/
  | seImm (x : Nibble) (kk : Byte)
  /-- 4xkk SNE Vx, kk (R106) -/
  | sneImm (x : Nibble) (kk : Byte)
  /-- 5xy0 SE Vx, Vy (R107) -/
  | seReg (x y : Nibble)
  /-- 9xy0 SNE Vx, Vy (R108) -/
  | sneReg (x y : Nibble)
  /-- 6xkk LD Vx, kk (R121) -/
  | ldImm (x : Nibble) (kk : Byte)
  /-- 7xkk ADD Vx, kk (R122) -/
  | addImm (x : Nibble) (kk : Byte)
  /-- 8xy0 LD Vx, Vy (R123) -/
  | ldReg (x y : Nibble)
  /-- 8xy1 OR Vx, Vy (R124) -/
  | orReg (x y : Nibble)
  /-- 8xy2 AND Vx, Vy (R125) -/
  | andReg (x y : Nibble)
  /-- 8xy3 XOR Vx, Vy (R126) -/
  | xorReg (x y : Nibble)
  /-- 8xy4 ADD Vx, Vy (R127) -/
  | addReg (x y : Nibble)
  /-- 8xy5 SUB Vx, Vy (R128) -/
  | sub (x y : Nibble)
  /-- 8xy7 SUBN Vx, Vy (R130) -/
  | subn (x y : Nibble)
  /-- 8xy6 SHR Vx (R129); y is encoded and ignored (R73, R86) -/
  | shr (x y : Nibble)
  /-- 8xyE SHL Vx (R131); y is encoded and ignored (R73, R86) -/
  | shl (x y : Nibble)
  /-- Annn LD I, nnn (R191) -/
  | ldI (nnn : Addr)
  /-- Bnnn JP V0, nnn (R109) -/
  | jpV0 (nnn : Addr)
  /-- Cxkk RND Vx, kk (R133) -/
  | rnd (x : Nibble) (kk : Byte)
  /-- Dxyn DRW Vx, Vy, n (R154) -/
  | drw (x y n : Nibble)
  /-- Ex9E SKP Vx (R171) -/
  | skp (x : Nibble)
  /-- ExA1 SKNP Vx (R172) -/
  | sknp (x : Nibble)
  /-- Fx0A LD Vx, K (R173) -/
  | ldKey (x : Nibble)
  /-- Fx07 LD Vx, DT (R174) -/
  | ldDelay (x : Nibble)
  /-- Fx15 LD DT, Vx (R175) -/
  | setDelay (x : Nibble)
  /-- Fx18 LD ST, Vx (R176) -/
  | setSound (x : Nibble)
  /-- Fx1E ADD I, Vx (R192) -/
  | addI (x : Nibble)
  /-- Fx29 LD F, Vx (R193) -/
  | ldFont (x : Nibble)
  /-- Fx33 LD B, Vx (R194) -/
  | ldBcd (x : Nibble)
  /-- Fx55 LD [I], Vx (R195) -/
  | storeRegs (x : Nibble)
  /-- Fx65 LD Vx, [I] (R196) -/
  | loadRegs (x : Nibble)
  deriving DecidableEq, Repr

/-- Why the decoder rejects a byte sequence. -/
inductive DecodeError where
  /-- The word is illegal (R74: carries "the original 16-bit word"). -/
  | unknownOpcode (w : Word)
  /-- Fewer than two bytes: no instruction word is there to read (R70). -/
  | truncated
  deriving DecidableEq, Repr

end Sys2Proof
end

