-- ==== Sys2Proof/WellFormed.lean ====
section
/-! DEFINITION. Which instruction terms have an encoding of their own. The operand types carry every
range of spec/30_encoding.md R71, so the only check is SYS's: its pattern 0nnn leaves out CLS, RET and
the words that P_0XE_WILDCARD governs (R76). -/

namespace Sys2Proof

/-- Whether nnn is 0xXE0 or 0xXEE for some X, the addresses R76 treats apart. -/
def clsRetTail (nnn : Addr) : Bool :=
  nnn.extractLsb' 0 8 == 0xE0#8 || nnn.extractLsb' 0 8 == 0xEE#8

/-- SYS nnn is a word of its own when nnn does not end in E0 or EE, and, under P_0XE_WILDCARD = SYS, when
it does and its high nibble is not 0 (R76). -/
def sysWf (p : Params) (nnn : Addr) : Bool :=
  !clsRetTail nnn || (p.zeroXE == .sys && nnn.extractLsb' 8 4 != 0#4)

/-- The instruction has an encoding that decodes to it under the parameters `p`. -/
def Instr.wf (p : Params) : Instr → Bool
  | .sys nnn => sysWf p nnn
  | .cls => true
  | .ret => true
  | .jp _ => true
  | .call _ => true
  | .seImm _ _ => true
  | .sneImm _ _ => true
  | .seReg _ _ => true
  | .sneReg _ _ => true
  | .ldImm _ _ => true
  | .addImm _ _ => true
  | .ldReg _ _ => true
  | .orReg _ _ => true
  | .andReg _ _ => true
  | .xorReg _ _ => true
  | .addReg _ _ => true
  | .sub _ _ => true
  | .subn _ _ => true
  | .shr _ _ => true
  | .shl _ _ => true
  | .ldI _ => true
  | .jpV0 _ => true
  | .rnd _ _ => true
  | .drw _ _ _ => true
  | .skp _ => true
  | .sknp _ => true
  | .ldKey _ => true
  | .ldDelay _ => true
  | .setDelay _ => true
  | .setSound _ => true
  | .addI _ => true
  | .ldFont _ => true
  | .ldBcd _ => true
  | .storeRegs _ => true
  | .loadRegs _ => true

end Sys2Proof
end

