-- ==== Sys2Proof/Decode.lean ====
section
/-! DEFINITION. The decoder of spec/30_encoding.md R74 to R81, total on every word and every byte
sequence, and the encoder written from the same patterns (R78). -/

namespace Sys2Proof

/-- The instruction word of two fetched bytes: the byte at the lower address is bits 15:8 (R53, R70). -/
def wordOfBytes (hi lo : Byte) : Word := hi ++ lo

/-- The high byte of a word, stored at the lower address (R53). -/
def highByte (w : Word) : Byte := w.extractLsb' 8 8

/-- The low byte of a word, stored at the higher address (R53). -/
def lowByte (w : Word) : Byte := w.extractLsb' 0 8

/-- Field a = w[15:12] (R16, R71). -/
def fieldA (w : Word) : Nibble := w.extractLsb' 12 4

/-- Field x = w[11:8] (R16, R71). -/
def fieldX (w : Word) : Nibble := w.extractLsb' 8 4

/-- Field y = w[7:4] (R16, R71). -/
def fieldY (w : Word) : Nibble := w.extractLsb' 4 4

/-- Field n = w[3:0] (R16, R71). -/
def fieldN (w : Word) : Nibble := w.extractLsb' 0 4

/-- Field nnn = w[11:0] (R16, R71). -/
def fieldNNN (w : Word) : Addr := w.extractLsb' 0 12

/-- Field kk = w[7:0] (R16, R71). -/
def fieldKK (w : Word) : Byte := w.extractLsb' 0 8

/-- Family 0 (R76). -/
def decode0 (p : Params) (w : Word) : Except DecodeError Instr :=
  if w = 0x00E0#16 then .ok .cls
  else if w = 0x00EE#16 then .ok .ret
  else if fieldX w ≠ 0#4 ∧ (fieldKK w = 0xE0#8 ∨ fieldKK w = 0xEE#8) then
    match p.zeroXE with
    | .unknown => .error (.unknownOpcode w)
    | .clsRet => .ok (if fieldKK w = 0xE0#8 then .cls else .ret)
    | .sys => .ok (.sys (fieldNNN w))
  else .ok (.sys (fieldNNN w))

/-- Families 5 and 9: a skip on two registers, whose n field P_SKIP_N_WILDCARD governs (R77). -/
def decodeSkipReg (p : Params) (op : Nibble → Nibble → Instr) (w : Word) : Except DecodeError Instr :=
  if fieldN w = 0#4 then .ok (op (fieldX w) (fieldY w))
  else match p.skipN with
    | .unknown => .error (.unknownOpcode w)
    | .accept => .ok (op (fieldX w) (fieldY w))

/-- Family 8, by n (R79). -/
def decode8 (w : Word) : Except DecodeError Instr :=
  if fieldN w = 0x0#4 then .ok (.ldReg (fieldX w) (fieldY w))
  else if fieldN w = 0x1#4 then .ok (.orReg (fieldX w) (fieldY w))
  else if fieldN w = 0x2#4 then .ok (.andReg (fieldX w) (fieldY w))
  else if fieldN w = 0x3#4 then .ok (.xorReg (fieldX w) (fieldY w))
  else if fieldN w = 0x4#4 then .ok (.addReg (fieldX w) (fieldY w))
  else if fieldN w = 0x5#4 then .ok (.sub (fieldX w) (fieldY w))
  else if fieldN w = 0x6#4 then .ok (.shr (fieldX w) (fieldY w))
  else if fieldN w = 0x7#4 then .ok (.subn (fieldX w) (fieldY w))
  else if fieldN w = 0xE#4 then .ok (.shl (fieldX w) (fieldY w))
  else .error (.unknownOpcode w)

/-- Family E, by kk (R80). -/
def decodeE (w : Word) : Except DecodeError Instr :=
  if fieldKK w = 0x9E#8 then .ok (.skp (fieldX w))
  else if fieldKK w = 0xA1#8 then .ok (.sknp (fieldX w))
  else .error (.unknownOpcode w)

/-- Family F, by kk (R81). -/
def decodeF (w : Word) : Except DecodeError Instr :=
  if fieldKK w = 0x07#8 then .ok (.ldDelay (fieldX w))
  else if fieldKK w = 0x0A#8 then .ok (.ldKey (fieldX w))
  else if fieldKK w = 0x15#8 then .ok (.setDelay (fieldX w))
  else if fieldKK w = 0x18#8 then .ok (.setSound (fieldX w))
  else if fieldKK w = 0x1E#8 then .ok (.addI (fieldX w))
  else if fieldKK w = 0x29#8 then .ok (.ldFont (fieldX w))
  else if fieldKK w = 0x33#8 then .ok (.ldBcd (fieldX w))
  else if fieldKK w = 0x55#8 then .ok (.storeRegs (fieldX w))
  else if fieldKK w = 0x65#8 then .ok (.loadRegs (fieldX w))
  else .error (.unknownOpcode w)

/-- The decoder: a pure total function of the word and the parameters (R74, R75). -/
def decode (p : Params) (w : Word) : Except DecodeError Instr :=
  if fieldA w = 0x0#4 then decode0 p w
  else if fieldA w = 0x1#4 then .ok (.jp (fieldNNN w))
  else if fieldA w = 0x2#4 then .ok (.call (fieldNNN w))
  else if fieldA w = 0x3#4 then .ok (.seImm (fieldX w) (fieldKK w))
  else if fieldA w = 0x4#4 then .ok (.sneImm (fieldX w) (fieldKK w))
  else if fieldA w = 0x5#4 then decodeSkipReg p .seReg w
  else if fieldA w = 0x6#4 then .ok (.ldImm (fieldX w) (fieldKK w))
  else if fieldA w = 0x7#4 then .ok (.addImm (fieldX w) (fieldKK w))
  else if fieldA w = 0x8#4 then decode8 w
  else if fieldA w = 0x9#4 then decodeSkipReg p .sneReg w
  else if fieldA w = 0xA#4 then .ok (.ldI (fieldNNN w))
  else if fieldA w = 0xB#4 then .ok (.jpV0 (fieldNNN w))
  else if fieldA w = 0xC#4 then .ok (.rnd (fieldX w) (fieldKK w))
  else if fieldA w = 0xD#4 then .ok (.drw (fieldX w) (fieldY w) (fieldN w))
  else if fieldA w = 0xE#4 then decodeE w
  else decodeF w

/-- Decoding from memory's bytes, lowest address first: the instruction and the bytes after it (R70). -/
def decodeBytes (p : Params) : List Byte → Except DecodeError (Instr × List Byte)
  | hi :: lo :: rest =>
    match decode p (wordOfBytes hi lo) with
    | .ok i => .ok (i, rest)
    | .error e => .error e
  | _ => .error .truncated

/-- The pattern a ++ nnn (R71 shape a_nnn). -/
def wordANNN (a : Nibble) (nnn : Addr) : Word := a ++ nnn

/-- nnn = x ++ y ++ n, here with kk = y ++ n (R71). -/
def addrXKK (x : Nibble) (kk : Byte) : Addr := x ++ kk

/-- kk = y ++ n (R71). -/
def byteYN (y n : Nibble) : Byte := y ++ n

/-- The pattern a ++ x ++ kk (R71 shapes a_x_kk and a_x_sub). -/
def wordAXKK (a x : Nibble) (kk : Byte) : Word := wordANNN a (addrXKK x kk)

/-- The pattern a ++ x ++ y ++ n (R71 shape a_x_y_sub). -/
def wordAXYN (a x y n : Nibble) : Word := wordAXKK a x (byteYN y n)

/-- The encoder, from the patterns of R78. -/
def encode : Instr → Word
  | .cls => 0x00E0#16
  | .ret => 0x00EE#16
  | .sys nnn => wordANNN 0x0#4 nnn
  | .jp nnn => wordANNN 0x1#4 nnn
  | .call nnn => wordANNN 0x2#4 nnn
  | .seImm x kk => wordAXKK 0x3#4 x kk
  | .sneImm x kk => wordAXKK 0x4#4 x kk
  | .seReg x y => wordAXYN 0x5#4 x y 0x0#4
  | .sneReg x y => wordAXYN 0x9#4 x y 0x0#4
  | .ldImm x kk => wordAXKK 0x6#4 x kk
  | .addImm x kk => wordAXKK 0x7#4 x kk
  | .ldReg x y => wordAXYN 0x8#4 x y 0x0#4
  | .orReg x y => wordAXYN 0x8#4 x y 0x1#4
  | .andReg x y => wordAXYN 0x8#4 x y 0x2#4
  | .xorReg x y => wordAXYN 0x8#4 x y 0x3#4
  | .addReg x y => wordAXYN 0x8#4 x y 0x4#4
  | .sub x y => wordAXYN 0x8#4 x y 0x5#4
  | .subn x y => wordAXYN 0x8#4 x y 0x7#4
  | .shr x y => wordAXYN 0x8#4 x y 0x6#4
  | .shl x y => wordAXYN 0x8#4 x y 0xE#4
  | .ldI nnn => wordANNN 0xA#4 nnn
  | .jpV0 nnn => wordANNN 0xB#4 nnn
  | .rnd x kk => wordAXKK 0xC#4 x kk
  | .drw x y n => wordAXYN 0xD#4 x y n
  | .skp x => wordAXKK 0xE#4 x 0x9E#8
  | .sknp x => wordAXKK 0xE#4 x 0xA1#8
  | .ldKey x => wordAXKK 0xF#4 x 0x0A#8
  | .ldDelay x => wordAXKK 0xF#4 x 0x07#8
  | .setDelay x => wordAXKK 0xF#4 x 0x15#8
  | .setSound x => wordAXKK 0xF#4 x 0x18#8
  | .addI x => wordAXKK 0xF#4 x 0x1E#8
  | .ldFont x => wordAXKK 0xF#4 x 0x29#8
  | .ldBcd x => wordAXKK 0xF#4 x 0x33#8
  | .storeRegs x => wordAXKK 0xF#4 x 0x55#8
  | .loadRegs x => wordAXKK 0xF#4 x 0x65#8

/-- The bytes of an instruction as memory holds them, high byte first (R53, R70). -/
def encodeBytes (i : Instr) : List Byte := [highByte (encode i), lowByte (encode i)]

/-- The instruction word that spec/opcode_table.json numbers as `w`: its `nbits` low bits, zeros above. -/
def tableWord (nbits w : Nat) : Word := BitVec.ofNat 16 (w % 2 ^ nbits)

/-- What the decoder, under the default parameters, reads from the bytes of a table word. -/
def decodeTableWord (nbits w : Nat) : Option Instr :=
  match decodeBytes Config.defaults [highByte (tableWord nbits w), lowByte (tableWord nbits w)] with
  | .ok (i, _) => some i
  | .error _ => none

end Sys2Proof
end

