-- ==== Sys2Proof/Machine/State.lean ====
section
/-! DEFINITION. The architectural state (spec/10_state.md R20), the reasons a step stops
(spec/60_exceptions.md R211), and the machine right after reset (spec/70_reset_and_hazards.md R242). -/

namespace Sys2Proof.Machine

/-- Memory M as plain data: (address, byte) pairs, addresses strictly rising, none equal to what the
unlisted address reads as (R30, R241). -/
abbrev Memory := List Host.Cell

/-- The two inputs of one step: bit k of `keys` is 1 exactly when key k is pressed; `rnd` is the random
byte offered (R15, R45, R46). -/
structure Input where
  keys : BitVec 16
  rnd : Byte
  deriving DecidableEq, Repr

/-- The `result` port of a completed step (R47). -/
inductive StepResult where
  | noChange
  | displayUpdated
  deriving DecidableEq, Repr

/-- The state of the CORE. `v`, `i`, `pc`, `stack`, `dt`, `st`, `mem`, `fb` are the spec's whole
architectural state (R20); `result`, `params`, `inputs`, `tick` are the model's own fields
(notes/assumptions/7.md to 10.md). -/
structure State where
  /-- V0..VF; VF is the flag register (R21, R22). -/
  v : Vector Byte 16
  /-- The memory pointer I (R26). -/
  i : Word
  /-- The program counter (R24). -/
  pc : Word
  /-- The call stack, the most recently pushed entry first (R27; notes/assumptions/13.md). -/
  stack : List Word
  /-- The delay timer (R28). -/
  dt : Byte
  /-- The sound timer (R29). -/
  st : Byte
  /-- Memory M (R30). -/
  mem : Memory
  /-- The display buffer (R32). -/
  fb : Display
  /-- The result port as the last completed step left it (R47). -/
  result : StepResult
  /-- The open parameters of R9 that steps read; no step changes them. -/
  params : Params
  /-- The inputs the host has settled for the coming steps, the next step's first (R15, R231). -/
  inputs : List Input
  /-- The number of step transactions so far; it indexes the free inputs. -/
  tick : Nat
  deriving DecidableEq, Repr

/-- Why a step reports FAULT (R211). Each leaves the state as it was before the step (R220), and each is
the spec's own: safe. -/
inductive Fault where
  /-- Cause 1: the fetched word `w` is illegal; raised by `step` at decode (R213). Safe. -/
  | unknownOpcode (w : Word)
  /-- Cause 2: `pc` is 0x1000 or above at the start of a step; raised by the fetch (R212). Safe. -/
  | outOfMemory (pc : Word)
  /-- Cause 3: RET at address `p` with an empty stack (R215). Safe. -/
  | stackUnderflow (p : Word)
  /-- Cause 4: the first address above 0xFFF that the fetch, DRW, FX33, FX55 or FX65 needs (R214). Safe. -/
  | memOutOfRange (a : Word)
  /-- Cause 5: CALL at address `p` with a full stack of finite STACK_DEPTH (R216). Safe. -/
  | stackOverflow (p : Word)
  /-- Cause 6: FX1E whose sum exceeds 0xFFFF; carries I before the step (R217). Safe. -/
  | pointerOverflow (i : Word)
  /-- Cause 7: the first address below 0x200 that FX33 or FX55 would write, when P_RESERVED_WRITE is
  FAULT (R218). Safe. -/
  | reservedWrite (a : Word)
  deriving DecidableEq, Repr

/-- Why the model gives an instruction no meaning. -/
inductive Refusal where
  /-- An instruction `exec` rejects by its table name because the model has no meaning for it; safe. No arm
  raises it: every instruction of the table has its meaning. -/
  | notModelled (mnemonic : String)
  deriving DecidableEq, Repr

/-- The machine right after reset: pc 0x200 and an empty stack as the spec says (R242), memory at its reset
contents with no program image (R241), the default parameters (R9), and every value the spec leaves
unspecified at 0 (DESIGN CHOICE, unsafe: notes/assumptions/1.md to 5.md, 8.md, 9.md). -/
def State.reset : State :=
  { v := Vector.replicate 16 0#8
    i := 0#16
    pc := 0x200#16
    stack := []
    dt := 0#8
    st := 0#8
    mem := []
    fb := Vector.replicate 32 0#64
    result := .noChange
    params := Config.defaults
    inputs := []
    tick := 0 }

end Sys2Proof.Machine
end

