-- ==== Sys2Proof/Machine/Ops.lean ====
section
/-! DEFINITION. The named operations over the state: registers, memory (spec/00_scope.md R13), call stack
(R12), step inputs (R15), raising a fault (R14, R222), and the parts of the step around an instruction
(spec/40_step_engine.md R91 to R93). -/

namespace Sys2Proof.Machine

/-- The three ways a step or a meaning ends. -/
abbrev Outcome := Host.Outcome State Fault Refusal

/-! ### Field updates -/

def State.setV (s : State) (v : Vector Byte 16) : State := { s with v := v }
/-- `I <- a` (R12). -/
def State.setI (s : State) (a : Word) : State := { s with i := a }
/-- `pc <- target` (R12). -/
def State.setPc (s : State) (target : Word) : State := { s with pc := target }
def State.setStack (s : State) (stack : List Word) : State := { s with stack := stack }
/-- `DT <- b` (R12). -/
def State.setDt (s : State) (b : Byte) : State := { s with dt := b }
/-- `ST <- b` (R12). -/
def State.setSt (s : State) (b : Byte) : State := { s with st := b }
def State.setMem (s : State) (m : Memory) : State := { s with mem := m }
def State.setFb (s : State) (fb : Display) : State := { s with fb := fb }
def State.setResult (s : State) (r : StepResult) : State := { s with result := r }

/-! ### General registers -/

/-- `V[x]` (R12): every index 0..15 is a register, none hardwired (R21). -/
def State.reg (s : State) (x : Nibble) : Byte := s.v[x.toNat]'(x.isLt)

/-- `V[x] <- b` (R12). -/
def State.setReg (s : State) (x : Nibble) (b : Byte) : State := s.setV (s.v.set x.toNat b (x.isLt))

/-- The index of VF, the flag register (R22). -/
abbrev vf : Nibble := 0xF#4

/-- Writes a result to `V[x]` and then a flag to VF, in this order (R22, R120 c): with x = 0xF the flag
stays. -/
def State.setRegFlag (s : State) (x : Nibble) (b flag : Byte) : State := (s.setReg x b).setReg vf flag

/-! ### Call stack -/

/-- `Push(v)` (R12). -/
def State.push (s : State) (v : Word) : State := s.setStack (v :: s.stack)

/-- Whether a push would exceed STACK_DEPTH; never when it is UNBOUNDED (R27, R104). -/
def State.stackFull (s : State) : Bool :=
  match s.params.stackDepth with
  | none => false
  | some depth => s.stack.length == depth

/-! ### Memory -/

/-- What a byte of memory that nothing has listed reads as: the font byte in 0x000..0x04F (R31, R241) and
0 elsewhere (P_MEM_FILL; DESIGN CHOICE, unsafe: notes/assumptions/5.md). -/
def Memory.unlisted (a : Nat) : Byte := Config.font.getD a 0#8

/-- The byte at address `a` (R58, R59). -/
def Memory.read : Memory → Nat → Byte
  | [], a => Memory.unlisted a
  | (k, b) :: m, a => if k = a then b else Memory.read m a

/-- The entries of `m` with address `a` now holding `b`, kept in canonical form. -/
def Memory.insert (a : Nat) (b : Byte) : Memory → Memory
  | [] => if b = Memory.unlisted a then [] else [(a, b)]
  | (k, c) :: m =>
    if a < k then (if b = Memory.unlisted a then (k, c) :: m else (a, b) :: (k, c) :: m)
    else if a = k then (if b = Memory.unlisted a then m else (a, b) :: m)
    else (k, c) :: Memory.insert a b m

/-- Sets one byte. An address above 0xFFF does not exist and is left out; every access of the machine is
checked before it gets here (R55). -/
def Memory.set (m : Memory) (a : Nat) (b : Byte) : Memory :=
  if a < Config.memSize then Memory.insert a b m else m

/-- The `n` bytes at `a`, `a+1`, ..., lowest address first. -/
def Memory.readBlock (m : Memory) (a n : Nat) : List Byte := (List.range n).map fun k => m.read (a + k)

/-- Sets consecutive bytes from `a` on, lowest address first. -/
def Memory.writeBlock (m : Memory) (a : Nat) : List Byte → Memory
  | [] => m
  | b :: bs => Memory.writeBlock (m.set a b) (a + 1) bs

/-- The canonical form of memory: addresses strictly rising, every address below 0x1000, no entry equal to
what the unlisted address reads as. -/
abbrev Memory.wf (m : Memory) : Prop :=
  m.Pairwise (fun c d => c.1 < d.1) ∧ ∀ c ∈ m, c.1 < Config.memSize ∧ c.2 ≠ Memory.unlisted c.1

/-- The first address above 0xFFF among `a..a+n-1`, if there is one (R13, R214: max(a, 0x1000)). -/
def firstOutside (a n : Nat) : Option Nat :=
  if n = 0 ∨ a + n ≤ Config.memSize then none else some (max a Config.memSize)

/-- The first address below 0x200 among `a..a+n-1`, if there is one (R57). -/
def firstReserved (a n : Nat) : Option Nat :=
  if n = 0 ∨ Config.programStart ≤ a then none else some a

/-- `MemRead(a, n)` (R13): the whole block is checked before any byte is read. -/
def State.memRead (s : State) (a n : Nat) : Except Fault (List Byte) :=
  match firstOutside a n with
  | some bad => .error (.memOutOfRange (BitVec.ofNat 16 bad))
  | none => .ok (s.mem.readBlock a n)

/-- `MemWrite(a, n, v)` with the bytes of v, lowest address first (R13): the bounds first, then the reserved
region as P_RESERVED_WRITE says (R57), before any byte is written. -/
def State.memWrite (s : State) (a : Nat) (bytes : List Byte) : Except Fault State :=
  match firstOutside a bytes.length with
  | some bad => .error (.memOutOfRange (BitVec.ofNat 16 bad))
  | none =>
    match s.params.reservedWrite, firstReserved a bytes.length with
    | .fault, some bad => .error (.reservedWrite (BitVec.ofNat 16 bad))
    | _, _ => .ok (s.setMem (s.mem.writeBlock a bytes))

/-! ### Step inputs -/

/-- The pressed-key set of the current step (R15, R45): what the host settled, else a free value. -/
def State.keys (s : State) : BitVec 16 :=
  match s.inputs with
  | input :: _ => input.keys
  | [] => Config.freeKeys s.tick

/-- The random byte of the current step (R15, R46): what the host settled, else a free value. -/
def State.rnd (s : State) : Byte :=
  match s.inputs with
  | input :: _ => input.rnd
  | [] => Config.freeRnd s.tick

/-- The step transaction is over: the inputs of the next one take their place (R45 "replaced wholesale
before each step"). -/
def State.nextInput (s : State) : State := { s with inputs := s.inputs.tail, tick := s.tick + 1 }

/-! ### Faults -/

/-- `raise E(info)` (R14): taking a fault, in the one way this machine has. It saves nothing, changes no mode
and transfers control nowhere (R222); the working copy is dropped, so the state stays that before the step
(R220). There is no return from it (R223). -/
def raise (f : Fault) : Outcome := .fault f

/-- Goes on with a state, or raises the fault that kept it from being made. -/
def finish : Except Fault State → Outcome
  | .ok s => .next s
  | .error f => raise f

/-- The fetch address p of the instruction now executing: `pc` already equals p + 2 (R93). -/
def State.fetchAddr (s : State) : Word := s.pc - 2#16

/-! ### The step around an instruction -/

/-- Steps 1 and 2 of the sequence (R91): OutOfMemory at pc ≥ 0x1000, then the two bytes at pc, big-endian;
MemOutOfRange(0x1000) at pc = 0xFFF. -/
def State.fetch (s : State) : Except Fault Word :=
  if s.pc.toNat ≥ Config.memSize then .error (.outOfMemory s.pc)
  else match s.memRead s.pc.toNat 2 with
    | .error f => .error f
    | .ok bytes => .ok (wordOfBytes (bytes.getD 0 0#8) (bytes.getD 1 0#8))

/-- One timer's decrement, clamped at zero (R28, R92). -/
def countDown (b : Byte) : Byte := if b = 0#8 then 0#8 else b - 1#8

/-- Steps 3 and 4 of the sequence: both timers count down, pc moves past the word (R92, R93); the result is
NO_CHANGE until the instruction says otherwise (R90, R95). -/
def State.advance (s : State) : State :=
  (((s.setDt (countDown s.dt)).setSt (countDown s.st)).setPc (s.pc + 2#16)).setResult .noChange

/-- Step 6's end (R96): a completed instruction's working copy is committed and the next inputs take their
place. -/
def commit : Outcome → Outcome
  | .next s => .next s.nextInput
  | .fault f => .fault f
  | .refused r => .refused r

end Sys2Proof.Machine
end

