-- ==== Sys2Proof/Machine/Operands.lean ====
section
/-! DEFINITION. The operand forms: the zero-extended address field (spec/30_encoding.md R72), the one
addressing mode I plus a byte offset (spec/45_memory_pointer.md R190), the register block V0..Vx
(R195, R196), key membership and choice (spec/44_keys_timers.md R170, R173), glyph addresses (R193) and
decimal digits (R194). -/

namespace Sys2Proof.Machine

/-- `zext_16(nnn)` (R72). -/
def addrOf (nnn : Addr) : Word := nnn.setWidth 16

/-- The address of byte 0 of a block access: I, on unbounded integers, no wrap (R190). -/
def State.blockBase (s : State) : Nat := s.i.toNat

/-- `V[0] ++ ... ++ V[x]`, V0 first (R195). -/
def State.regsTo (s : State) (x : Nibble) : List Byte := s.v.toList.take (x.toNat + 1)

/-- `V[k] <- bytes[k]` for every byte there is; registers above keep their values (R196). -/
def State.setRegsFrom (s : State) (bytes : List Byte) : State :=
  s.setV (Vector.ofFn fun k : Fin 16 => bytes.getD k.val (s.v[k.val]))

/-- `k in keys`: bit k of the mask for k ≤ 15, and false for a byte above 15 (R170). -/
def keyIn (k : Byte) (keys : BitVec 16) : Bool := keys.getLsbD k.toNat

/-- The members of a key set, lowest first. -/
def keyList (keys : BitVec 16) : List Nibble :=
  ((List.range 16).filter fun k => keys.getLsbD k).map fun k => BitVec.ofNat 4 k

/-- `P_KEY_CHOICE(keys)` for a non-empty set (R9, R173): the free choice where it names a member, and a
member in any case, so that exactly the choice functions of R9 are admitted. -/
def chosenKey (keys : BitVec 16) : Nibble :=
  match keyList keys with
  | [] => 0#4
  | [k] => k
  | k :: _ => if keys.getLsbD (Config.keyChoice keys).toNat then Config.keyChoice keys else k

/-- The address of the glyph for a byte's low nibble: 5 bytes each from 0 (R193). -/
def glyphAddr (b : Byte) : Word := BitVec.ofNat 16 (5 * (b &&& 0x0F#8).toNat)

/-- Hundreds, tens and ones digits of a byte (R194). -/
def bcdDigits (b : Byte) : List Byte :=
  [BitVec.ofNat 8 (b.toNat / 100), BitVec.ofNat 8 (b.toNat / 10 % 10), BitVec.ofNat 8 (b.toNat % 10)]

end Sys2Proof.Machine
end

