-- ==== Sys2Proof/Machine/Flags.lean ====
section
/-! DEFINITION. Results and flags of the arithmetic instructions, each computed from exact integers and then
narrowed (spec/42_alu.md R120 a, R122, R127 to R132). VF is the only flag (spec/10_state.md R33). -/

namespace Sys2Proof.Machine

/-- `bool(c)` as a byte (R11). -/
def flagOf (c : Bool) : Byte := if c then 1#8 else 0#8

/-- The 9-bit sum reduced to 8 bits (R122, R127). -/
def addResult (a b : Byte) : Byte := BitVec.ofNat 8 (a.toNat + b.toNat)

/-- Carry: 1 exactly when the sum exceeds 255 (R122, R127). -/
def carryFlag (a b : Byte) : Byte := flagOf (decide (a.toNat + b.toNat > 255))

/-- `(a - b) mod 256` (R128, R130). -/
def subResult (a b : Byte) : Byte := BitVec.ofNat 8 (a.toNat + 256 - b.toNat)

/-- Not-borrow: 1 exactly when minuend ≥ subtrahend (R18, R128, R130). -/
def notBorrowFlag (a b : Byte) : Byte := flagOf (decide (a.toNat ≥ b.toNat))

/-- `a >> 1` (R129). -/
def shrResult (a : Byte) : Byte := a >>> 1

/-- The pre-shift low bit (R129). -/
def lowBitFlag (a : Byte) : Byte := flagOf (a.getLsbD 0)

/-- `(a << 1) mod 256` (R131). -/
def shlResult (a : Byte) : Byte := a <<< 1

/-- The pre-shift high bit (R131). -/
def highBitFlag (a : Byte) : Byte := flagOf (a.getLsbD 7)

end Sys2Proof.Machine
end

