-- ==== Sys2Proof/Machine/Alu.lean ====
section
/-! DEFINITION. Register and ALU instructions (spec/42_alu.md). Operands are read before anything is written
and a flag is written last (R120). -/

namespace Sys2Proof.Machine

/-- LD Vx, kk (R121). -/
def execLdImm (x : Nibble) (kk : Byte) (s : State) : Outcome := .next (s.setReg x kk)

/-- ADD Vx, kk: VF is the carry (R122). -/
def execAddImm (x : Nibble) (kk : Byte) (s : State) : Outcome :=
  .next (s.setRegFlag x (addResult (s.reg x) kk) (carryFlag (s.reg x) kk))

/-- LD Vx, Vy (R123). -/
def execLdReg (x y : Nibble) (s : State) : Outcome := .next (s.setReg x (s.reg y))

/-- OR Vx, Vy: no flag (R124). -/
def execOrReg (x y : Nibble) (s : State) : Outcome := .next (s.setReg x (s.reg x ||| s.reg y))

/-- AND Vx, Vy: no flag (R125). -/
def execAndReg (x y : Nibble) (s : State) : Outcome := .next (s.setReg x (s.reg x &&& s.reg y))

/-- XOR Vx, Vy: no flag (R126). -/
def execXorReg (x y : Nibble) (s : State) : Outcome := .next (s.setReg x (s.reg x ^^^ s.reg y))

/-- ADD Vx, Vy: VF is the carry (R127). -/
def execAddReg (x y : Nibble) (s : State) : Outcome :=
  .next (s.setRegFlag x (addResult (s.reg x) (s.reg y)) (carryFlag (s.reg x) (s.reg y)))

/-- SUB Vx, Vy: VF is not-borrow (R128). -/
def execSub (x y : Nibble) (s : State) : Outcome :=
  .next (s.setRegFlag x (subResult (s.reg x) (s.reg y)) (notBorrowFlag (s.reg x) (s.reg y)))

/-- SUBN Vx, Vy: V[y] - V[x], VF is not-borrow (R130). -/
def execSubn (x y : Nibble) (s : State) : Outcome :=
  .next (s.setRegFlag x (subResult (s.reg y) (s.reg x)) (notBorrowFlag (s.reg y) (s.reg x)))

/-- SHR Vx: V[y] is not read (R129). -/
def execShr (x _y : Nibble) (s : State) : Outcome :=
  .next (s.setRegFlag x (shrResult (s.reg x)) (lowBitFlag (s.reg x)))

/-- SHL Vx: V[y] is not read (R131). -/
def execShl (x _y : Nibble) (s : State) : Outcome :=
  .next (s.setRegFlag x (shlResult (s.reg x)) (highBitFlag (s.reg x)))

/-- RND Vx, kk: the step's random byte, a free draw, masked by kk (R133). -/
def execRnd (x : Nibble) (kk : Byte) (s : State) : Outcome := .next (s.setReg x (s.rnd &&& kk))

end Sys2Proof.Machine
end

