-- ==== Sys2Proof/Machine/Control.lean ====
section
/-! DEFINITION. Control flow instructions (spec/41_control_flow.md). Each runs with `pc` already past its
word (R93). -/

namespace Sys2Proof.Machine

/-- A skip: pc moves past one more word when the condition holds (R100). -/
def State.skipIf (s : State) (c : Bool) : State := s.setPc (if c then s.pc + 2#16 else s.pc)

/-- SYS nnn: no effect (R101). -/
def execSys (_nnn : Addr) (s : State) : Outcome := .next s

/-- RET (R102). -/
def execRet (s : State) : Outcome :=
  match s.stack with
  | [] => raise (.stackUnderflow s.fetchAddr)
  | top :: rest => .next ((s.setStack rest).setPc top)

/-- JP nnn (R103). -/
def execJp (nnn : Addr) (s : State) : Outcome := .next (s.setPc (addrOf nnn))

/-- CALL nnn (R104). -/
def execCall (nnn : Addr) (s : State) : Outcome :=
  if s.stackFull then raise (.stackOverflow s.fetchAddr)
  else .next ((s.push s.pc).setPc (addrOf nnn))

/-- SE Vx, kk (R105). -/
def execSeImm (x : Nibble) (kk : Byte) (s : State) : Outcome := .next (s.skipIf (s.reg x == kk))

/-- SNE Vx, kk (R106). -/
def execSneImm (x : Nibble) (kk : Byte) (s : State) : Outcome := .next (s.skipIf (s.reg x != kk))

/-- SE Vx, Vy (R107). -/
def execSeReg (x y : Nibble) (s : State) : Outcome := .next (s.skipIf (s.reg x == s.reg y))

/-- SNE Vx, Vy (R108). -/
def execSneReg (x y : Nibble) (s : State) : Outcome := .next (s.skipIf (s.reg x != s.reg y))

/-- JP V0, nnn: always V0, the sum not reduced to 12 bits (R109). -/
def execJpV0 (nnn : Addr) (s : State) : Outcome :=
  .next (s.setPc (addrOf nnn + (s.reg 0#4).setWidth 16))

end Sys2Proof.Machine
end

