-- ==== Sys2Proof/Machine/KeysTimers.lean ====
section
/-! DEFINITION. Key and timer instructions (spec/44_keys_timers.md). The timers have already counted down for
this step (R92). -/

namespace Sys2Proof.Machine

/-- SKP Vx (R171). -/
def execSkp (x : Nibble) (s : State) : Outcome := .next (s.skipIf (keyIn (s.reg x) s.keys))

/-- SKNP Vx (R172). -/
def execSknp (x : Nibble) (s : State) : Outcome := .next (s.skipIf (!keyIn (s.reg x) s.keys))

/-- The state LD Vx, K ends with: no key pressed rewinds pc to this instruction, else V[x] is a pressed key
(R173). -/
def State.keyWait (s : State) (x : Nibble) : State :=
  if s.keys = 0#16 then s.setPc s.fetchAddr else s.setReg x ((chosenKey s.keys).setWidth 8)

/-- LD Vx, K (R173). -/
def execLdKey (x : Nibble) (s : State) : Outcome := .next (s.keyWait x)

/-- LD Vx, DT (R174). -/
def execLdDelay (x : Nibble) (s : State) : Outcome := .next (s.setReg x s.dt)

/-- LD DT, Vx (R175). -/
def execSetDelay (x : Nibble) (s : State) : Outcome := .next (s.setDt (s.reg x))

/-- LD ST, Vx (R176). -/
def execSetSound (x : Nibble) (s : State) : Outcome := .next (s.setSt (s.reg x))

end Sys2Proof.Machine
end

