-- ==== Sys2Proof/Machine/Pointer.lean ====
section
/-! DEFINITION. Memory pointer and memory block instructions (spec/45_memory_pointer.md). A block access is
checked in full before any byte moves, and none changes I (R190). -/

namespace Sys2Proof.Machine

/-- LD I, nnn (R191). -/
def execLdI (nnn : Addr) (s : State) : Outcome := .next (s.setI (addrOf nnn))

/-- ADD I, Vx: PointerOverflow(I) above 0xFFFF; VF is not written (R192). -/
def execAddI (x : Nibble) (s : State) : Outcome :=
  if s.i.toNat + (s.reg x).toNat > 0xFFFF then raise (.pointerOverflow s.i)
  else .next (s.setI (BitVec.ofNat 16 (s.i.toNat + (s.reg x).toNat)))

/-- LD F, Vx (R193). -/
def execLdFont (x : Nibble) (s : State) : Outcome := .next (s.setI (glyphAddr (s.reg x)))

/-- LD B, Vx (R194). -/
def execLdBcd (x : Nibble) (s : State) : Outcome :=
  finish (s.memWrite s.blockBase (bcdDigits (s.reg x)))

/-- LD [I], Vx (R195). -/
def execStoreRegs (x : Nibble) (s : State) : Outcome :=
  finish (s.memWrite s.blockBase (s.regsTo x))

/-- LD Vx, [I] (R196). -/
def execLoadRegs (x : Nibble) (s : State) : Outcome :=
  match s.memRead s.blockBase (x.toNat + 1) with
  | .error f => raise f
  | .ok bytes => .next (s.setRegsFrom bytes)

end Sys2Proof.Machine
end

