-- ==== Sys2Proof/Machine/Screen.lean ====
section
/-! DEFINITION. The display buffer's operations and the display instructions (spec/43_display.md). -/

namespace Sys2Proof.Machine

/-- `FB[r][c]` (R12, R32). -/
def cell (fb : Display) (r c : Nat) : Bool := (fb.getD r 0#64).getLsbD c

/-- `FB[r][c] <- FB[r][c] ^ b` (R150). -/
def xorCell (fb : Display) (r c : Nat) (b : Bool) : Display :=
  if b then fb.setIfInBounds r (fb.getD r 0#64 ^^^ BitVec.twoPow 64 c) else fb

/-- The sprite bit of column c of a row byte, bit 7 leftmost (R150). -/
def spriteBit (row : Byte) (c : Nat) : Bool := row.getLsbD (7 - c)

/-- A draw in progress: the buffer and whether a lit cell has met a sprite bit 1. -/
abbrev Draw := Display × Bool

/-- One cell of the draw: collision against the pre-draw value, then XOR, wrapping round (R150). -/
def drawCell (ox oy r : Nat) (row : Byte) (d : Draw) (c : Nat) : Draw :=
  (xorCell d.1 ((oy + r) % 32) ((ox + c) % 64) (spriteBit row c),
   d.2 || (cell d.1 ((oy + r) % 32) ((ox + c) % 64) && spriteBit row c))

/-- One row of the draw: columns 0..7 in order (R150). -/
def drawRow (ox oy : Nat) (d : Draw) (row : Byte × Nat) : Draw :=
  (List.range 8).foldl (drawCell ox oy row.2 row.1) d

/-- `Draw(ox, oy, rows, n)`: rows 0..n-1 in order; the buffer after it and the collision (R150). -/
def draw (ox oy : Nat) (rows : List Byte) (fb : Display) : Draw :=
  rows.zipIdx.foldl (drawRow ox oy) (fb, false)

/-- `Clear()`: every cell 0 (R151). -/
def cleared : Display := Vector.replicate 32 0#64

/-- CLS (R152). -/
def execCls (s : State) : Outcome := .next ((s.setFb cleared).setResult .displayUpdated)

/-- The state DRW ends with, given its sprite rows (R154). -/
def State.drawn (s : State) (ox oy : Nat) (rows : List Byte) : State :=
  ((s.setFb (draw ox oy rows s.fb).1).setReg vf (flagOf (draw ox oy rows s.fb).2)).setResult .displayUpdated

/-- DRW Vx, Vy, n: n rows from M[I], drawn at (V[x] mod 64, V[y] mod 32); VF is the collision (R154). -/
def execDrw (x y n : Nibble) (s : State) : Outcome :=
  match s.memRead s.blockBase n.toNat with
  | .error f => raise f
  | .ok rows => .next (s.drawn ((s.reg x).toNat % 64) ((s.reg y).toNat % 32) rows)

end Sys2Proof.Machine
end

