-- ==== Sys2Proof/Machine/Step.lean ====
section
/-! DEFINITION. The step transaction (spec/40_step_engine.md R90), and placing a word where the next step
fetches. -/

namespace Sys2Proof.Machine

/-- `Step(keys, rnd)`: fetch, decode, count the timers down, advance pc, execute, commit (R90). The word is
decoded before the timers and pc move; the spec calls the result the same (R94), since a fault drops the
working copy (R14). -/
def step (s : State) : Host.Outcome State Fault Refusal :=
  match s.fetch with
  | .error f => raise f
  | .ok w =>
    match decode s.params w with
    | .error _ => raise (.unknownOpcode w)
    | .ok i => commit (exec i s.advance)

/-- `s` with the two bytes of a table word at pc and pc + 1, high byte first, so that the next step fetches
it (R53, R91). It stands for the host's load of a program (notes/assumptions/15.md). -/
def State.withFetchWord (s : State) (nbits w : Nat) : State :=
  s.setMem (s.mem.writeBlock s.pc.toNat [highByte (tableWord nbits w), lowByte (tableWord nbits w)])

end Sys2Proof.Machine
end

