-- ==== Sys2Proof/Machine/Boot.lean ====
section
/-! DEFINITION. Construction from a program image (spec/70_reset_and_hazards.md R240 to R243), with every
open reset value an argument (spec/00_scope.md R9). `State.reset` is construction with the empty image,
the default parameters and zeros. -/

namespace Sys2Proof.Machine

/-- The open reset values of R9: FONT, P_MEM_FILL, P_INIT_V, P_INIT_I, P_INIT_DT, P_INIT_ST, P_INIT_FB. -/
structure Boot where
  font : Vector Byte 80
  memFill : Nat → Byte
  initV : Vector Byte 16
  initI : Word
  initDt : Byte
  initSt : Byte
  initFb : Display

/-- The default FONT of R31 and zeros, the values `State.reset` takes. -/
def Boot.zeros : Boot :=
  { font := Vector.ofFn fun k : Fin 80 => Config.font.getD k.val 0#8
    memFill := fun _ => 0#8
    initV := Vector.replicate 16 0#8
    initI := 0#16
    initDt := 0#8
    initSt := 0#8
    initFb := Vector.replicate 32 0#64 }

/-- The byte construction puts at address `a` (R241). -/
def Boot.byteAt (b : Boot) (image : List Byte) (a : Nat) : Byte :=
  if h : a < Config.fontSize then b.font[a]
  else if Config.programStart ≤ a ∧ a < Config.programStart + image.length then
    image.getD (a - Config.programStart) 0#8
  else b.memFill a

/-- The canonical memory whose byte at every address of memory is `f a`. -/
def Memory.ofBytes (f : Nat → Byte) : Memory :=
  (List.range Config.memSize).filterMap fun a => if f a = Memory.unlisted a then none else some (a, f a)

/-- `construct(image)`: no machine for an image longer than 0xE00 bytes (R243). -/
def construct (p : Params) (b : Boot) (image : List Byte) : Option State :=
  if image.length ≤ Config.maxImage then
    some
      { v := b.initV, i := b.initI, pc := BitVec.ofNat 16 Config.programStart, stack := []
        dt := b.initDt, st := b.initSt, mem := Memory.ofBytes (b.byteAt image), fb := b.initFb
        result := .noChange, params := p, inputs := [], tick := 0 }
  else none

end Sys2Proof.Machine
end

