-- ==== Sys2Proof/Machine/Ports.lean ====
section
/-! DEFINITION. The output ports of the CORE (spec/10_state.md R44, R47 to R49; spec/60_exceptions.md R211):
what one step transaction reports, and what the host reads between steps. -/

namespace Sys2Proof.Machine

/-- `result` of a completed step as its 2-bit code (R44); FAULT's is in `Report.code`. -/
def StepResult.code : StepResult → BitVec 2
  | .noChange => 0#2
  | .displayUpdated => 1#2

/-- `fault_cause` (R211): codes 0 and 8..15 are never produced. -/
def Fault.cause : Fault → BitVec 4
  | .unknownOpcode _ => 1#4
  | .outOfMemory _ => 2#4
  | .stackUnderflow _ => 3#4
  | .memOutOfRange _ => 4#4
  | .stackOverflow _ => 5#4
  | .pointerOverflow _ => 6#4
  | .reservedWrite _ => 7#4

/-- `fault_info` (R211). -/
def Fault.info : Fault → Word
  | .unknownOpcode w => w
  | .outOfMemory pc => pc
  | .stackUnderflow p => p
  | .memOutOfRange a => a
  | .stackOverflow p => p
  | .pointerOverflow i => i
  | .reservedWrite a => a

/-- What a step transaction answers on `result`, `fault_cause` and `fault_info` (R44, R47). -/
inductive Report where
  /-- A completed step: NO_CHANGE or DISPLAY_UPDATED. -/
  | done (r : StepResult)
  /-- FAULT with its cause and info. -/
  | fault (cause : BitVec 4) (info : Word)
  /-- The model gave no meaning; no instruction of the table comes here. -/
  | notDone
  deriving DecidableEq, Repr

/-- The 2-bit `result` port (R44): NO_CHANGE = 0, DISPLAY_UPDATED = 1, FAULT = 2. A refusal is no result of the
spec's and has no code. -/
def Report.code : Report → Option (BitVec 2)
  | .done r => some r.code
  | .fault _ _ => some 2#2
  | .notDone => none

/-- The 4-bit `fault_cause` port, given only with FAULT (R44, R47). -/
def Report.cause : Report → Option (BitVec 4)
  | .done _ => none
  | .fault cause _ => some cause
  | .notDone => none

/-- The 16-bit `fault_info` port, given only with FAULT (R44, R47). -/
def Report.info : Report → Option Word
  | .done _ => none
  | .fault _ info => some info
  | .notDone => none

/-- One step transaction as the host sees it: after a fault every piece of the spec's state is as it was
(R220) and the host may step again (R223) with the next inputs. -/
def transact (s : State) : State × Report :=
  match step s with
  | .next t => (t, .done t.result)
  | .fault f => (s.nextInput, .fault f.cause f.info)
  | .refused _ => (s.nextInput, .notDone)

/-- Bit `k` of the 2048-bit `fb` port: bit r*64 + c is FB[r][c] (R48). -/
def State.fbPort (s : State) (k : Nat) : Bool := cell s.fb (k / 64) (k % 64)

/-- `sound_active`: 1 exactly when ST ≠ 0 (R49). -/
def State.soundActive (s : State) : Bool := s.st != 0#8

/-- `observe`: the spec's state elements between steps, read-only (R49); S oldest entry first (R27). -/
structure Observation where
  v : Vector Byte 16
  i : Word
  pc : Word
  stack : List Word
  dt : Byte
  st : Byte
  mem : List Byte
  fb : Display
  deriving DecidableEq, Repr

/-- What `observe` shows (R49). -/
def State.observe (s : State) : Observation :=
  { v := s.v, i := s.i, pc := s.pc, stack := s.stack.reverse, dt := s.dt, st := s.st
    mem := s.mem.readBlock 0 Config.memSize, fb := s.fb }

end Sys2Proof.Machine
end

