-- ==== Sys2Proof/Safety.lean ====
section
/-! DEFINITION. What claims are stated in terms of: the invariant of reachable states, what each instruction
may write (spec/10_state.md R20, R23, R25, R51), the sprite as cells of the grid (spec/43_display.md
R150), and the end of a run (spec/70_reset_and_hazards.md R251). -/

namespace Sys2Proof.Machine

/-! ### The invariant -/

/-- The stack fits STACK_DEPTH (R27). -/
def State.depthOk (s : State) : Prop :=
  match s.params.stackDepth with
  | none => True
  | some depth => s.stack.length ≤ depth

/-- What holds of every state a run can reach: memory in canonical form; pc at most 0x10FE and stack entries at
most 0x1000 (R24, R102, R104); the stack within its depth (R27). -/
def State.Inv (s : State) : Prop :=
  s.mem.wf ∧ s.pc.toNat ≤ 0x10FE ∧ (∀ e ∈ s.stack, e.toNat ≤ 0x1000) ∧ s.depthOk

/-! ### The bytes at an address -/

/-- The big-endian word M[a] ++ M[a+1] (R53). -/
def State.wordAt (s : State) (a : Nat) : Word := wordOfBytes (s.mem.read a) (s.mem.read (a + 1))

/-! ### What an instruction may write -/

/-- The registers an instruction may write: R23's column "writes", VF where R22 says a flag is written. -/
def writesRegs : Instr → List Nibble
  | .cls => []
  | .ret => []
  | .sys _ => []
  | .jp _ => []
  | .call _ => []
  | .seImm _ _ => []
  | .sneImm _ _ => []
  | .seReg _ _ => []
  | .sneReg _ _ => []
  | .ldImm x _ => [x]
  | .addImm x _ => [x, vf]
  | .ldReg x _ => [x]
  | .orReg x _ => [x]
  | .andReg x _ => [x]
  | .xorReg x _ => [x]
  | .addReg x _ => [x, vf]
  | .sub x _ => [x, vf]
  | .subn x _ => [x, vf]
  | .shr x _ => [x, vf]
  | .shl x _ => [x, vf]
  | .ldI _ => []
  | .jpV0 _ => []
  | .rnd x _ => [x]
  | .drw _ _ _ => [vf]
  | .skp _ => []
  | .sknp _ => []
  | .ldKey x => [x]
  | .ldDelay x => [x]
  | .setDelay _ => []
  | .setSound _ => []
  | .addI _ => []
  | .ldFont _ => []
  | .ldBcd _ => []
  | .storeRegs _ => []
  | .loadRegs x => (List.range (x.toNat + 1)).map (BitVec.ofNat 4)

/-- The pieces of state beside V and M that an instruction may write. -/
inductive Part where
  | i
  | pc
  | stack
  | dt
  | st
  | fb
  | result
  deriving DecidableEq, Repr

/-- The piece of state `p` is the same in both states. -/
def Part.same : Part → State → State → Prop
  | .i, s, t => t.i = s.i
  | .pc, s, t => t.pc = s.pc
  | .stack, s, t => t.stack = s.stack
  | .dt, s, t => t.dt = s.dt
  | .st, s, t => t.st = s.st
  | .fb, s, t => t.fb = s.fb
  | .result, s, t => t.result = s.result

/-- R20's column "written by", R25 and R47: what an instruction writes, beside the step's own advance. -/
def writesParts : Instr → List Part
  | .cls => [.fb, .result]
  | .ret => [.pc, .stack]
  | .sys _ => []
  | .jp _ => [.pc]
  | .call _ => [.pc, .stack]
  | .seImm _ _ => [.pc]
  | .sneImm _ _ => [.pc]
  | .seReg _ _ => [.pc]
  | .sneReg _ _ => [.pc]
  | .ldImm _ _ => []
  | .addImm _ _ => []
  | .ldReg _ _ => []
  | .orReg _ _ => []
  | .andReg _ _ => []
  | .xorReg _ _ => []
  | .addReg _ _ => []
  | .sub _ _ => []
  | .subn _ _ => []
  | .shr _ _ => []
  | .shl _ _ => []
  | .ldI _ => [.i]
  | .jpV0 _ => [.pc]
  | .rnd _ _ => []
  | .drw _ _ _ => [.fb, .result]
  | .skp _ => [.pc]
  | .sknp _ => [.pc]
  | .ldKey _ => [.pc]
  | .ldDelay _ => []
  | .setDelay _ => [.dt]
  | .setSound _ => [.st]
  | .addI _ => [.i]
  | .ldFont _ => [.i]
  | .ldBcd _ => []
  | .storeRegs _ => []
  | .loadRegs _ => []

/-- How many bytes an instruction stores, from `blockBase` on (R51): 3 for FX33, x+1 for FX55, none for every
other. -/
def storeWidth : Instr → Nat
  | .cls => 0
  | .ret => 0
  | .sys _ => 0
  | .jp _ => 0
  | .call _ => 0
  | .seImm _ _ => 0
  | .sneImm _ _ => 0
  | .seReg _ _ => 0
  | .sneReg _ _ => 0
  | .ldImm _ _ => 0
  | .addImm _ _ => 0
  | .ldReg _ _ => 0
  | .orReg _ _ => 0
  | .andReg _ _ => 0
  | .xorReg _ _ => 0
  | .addReg _ _ => 0
  | .sub _ _ => 0
  | .subn _ _ => 0
  | .shr _ _ => 0
  | .shl _ _ => 0
  | .ldI _ => 0
  | .jpV0 _ => 0
  | .rnd _ _ => 0
  | .drw _ _ _ => 0
  | .skp _ => 0
  | .sknp _ => 0
  | .ldKey _ => 0
  | .ldDelay _ => 0
  | .setDelay _ => 0
  | .setSound _ => 0
  | .addI _ => 0
  | .ldFont _ => 0
  | .ldBcd _ => 3
  | .storeRegs x => x.toNat + 1
  | .loadRegs _ => 0

/-- What the instruction `i` leaves unchanged from `s` to `t`: every register, piece of state and byte of memory
it does not write, and the model's parameters and inputs. -/
def Frame (i : Instr) (s t : State) : Prop :=
  (∀ r, r ∉ writesRegs i → t.reg r = s.reg r) ∧
  (∀ p, p ∉ writesParts i → p.same s t) ∧
  (∀ a, ¬ (s.blockBase ≤ a ∧ a < s.blockBase + storeWidth i) → t.mem.read a = s.mem.read a) ∧
  t.params = s.params ∧ t.inputs = s.inputs ∧ t.tick = s.tick

/-- Only the named registers may differ between the two states. -/
def KeepsRegsBut (rs : List Nibble) (s t : State) : Prop := ∀ r, r ∉ rs → t.reg r = s.reg r

/-- The instruction completes in a state that meets `P`. -/
def CompletesWith (i : Instr) (s : State) (P : State → Prop) : Prop := ∃ t, exec i s = .next t ∧ P t

/-- CLS and DRW, the instructions that report DISPLAY_UPDATED (R47, R95). -/
def displays : Instr → Bool
  | .cls => true
  | .drw _ _ _ => true
  | _ => false

/-- A write of `n` bytes at I is one the parameters allow: inside memory, and not below 0x200 under
P_RESERVED_WRITE = FAULT (R55, R57). -/
def State.mayStore (s : State) (n : Nat) : Prop :=
  s.i.toNat + n ≤ 0x1000 ∧ (s.params.reservedWrite = .write ∨ 0x200 ≤ s.i.toNat)

/-! ### The sprite on the grid -/

/-- Row of the sprite that falls on grid row `r` when row 0 is drawn at `oy`, on the torus (R150). -/
def spriteRow (oy r : Nat) : Nat := (r + 32 - oy % 32) % 32

/-- Column of the sprite that falls on grid column `c` when column 0 is drawn at `ox`, on the torus (R150). -/
def spriteCol (ox c : Nat) : Nat := (c + 64 - ox % 64) % 64

/-- Whether the sprite of `n` rows at M[I] drawn at (`ox`, `oy`) has a bit 1 on cell (r, c) (R150, R154). -/
def State.spriteOn (s : State) (ox oy n r c : Nat) : Bool :=
  decide (spriteRow oy r < n) && decide (spriteCol ox c < 8) &&
    (s.mem.read (s.i.toNat + spriteRow oy r)).getLsbD (7 - spriteCol ox c)

/-! ### The end of a run -/

/-- A run ends at L: pc = L and the word at L is JP L (R251). -/
def State.endsAt (s : State) (l : Addr) : Prop :=
  s.pc = l.setWidth 16 ∧ s.pc.toNat ≤ 0xFFE ∧ s.wordAt s.pc.toNat = 0x1#4 ++ l

end Sys2Proof.Machine
end

