-- ==== Sys2Proof/Certificates/Slice0/Obligations.lean ====
section
/-! DEFINITION. The statements for the provers, from the numbered rules of spec/. `CompletesWith i s P` says that
`exec i s` answers a next state that meets `P`. -/

open Sys2Proof Sys2Proof.Machine

/-! ### Encoding (spec/30_encoding.md) -/

/-- Every well-formed instruction, encoded to its two bytes and read back from memory's bytes, is itself, and the
bytes after it are left over (R70, R71, R78). -/
def Obligations.DecodeOfEncodeIsTheInstruction : Prop :=
  ∀ (p : Params) (i : Instr) (rest : List Byte), i.wf p = true →
    decodeBytes p (encodeBytes i ++ rest) = .ok (i, rest)

/-- Where no wildcard parameter folds several words into one instruction, a word that decodes is the word of its
instruction, and that instruction is well-formed (R74, R84). -/
def Obligations.EncodeOfDecodeIsTheWord : Prop :=
  ∀ (p : Params) (w : Word) (i : Instr), p.zeroXE ≠ .clsRet → p.skipN = .unknown →
    decode p w = .ok i → encode i = w ∧ i.wf p = true

/-- Under the default parameters exactly the words R83 lists are illegal, and the failure carries the word. -/
def Obligations.IllegalWordsAreTheListedOnes : Prop :=
  ∀ w : Word, decode Config.defaults w = .error (.unknownOpcode w) ↔
    (w.extractLsb 15 12 = 0x0#4 ∧ w.extractLsb 11 8 ≠ 0#4 ∧
      (w.extractLsb 7 0 = 0xE0#8 ∨ w.extractLsb 7 0 = 0xEE#8)) ∨
    (w.extractLsb 15 12 = 0x5#4 ∧ w.extractLsb 3 0 ≠ 0#4) ∨
    (w.extractLsb 15 12 = 0x9#4 ∧ w.extractLsb 3 0 ≠ 0#4) ∨
    (w.extractLsb 15 12 = 0x8#4 ∧
      w.extractLsb 3 0 ∈ [0x8#4, 0x9#4, 0xA#4, 0xB#4, 0xC#4, 0xD#4, 0xF#4]) ∨
    (w.extractLsb 15 12 = 0xE#4 ∧ w.extractLsb 7 0 ∉ [0x9E#8, 0xA1#8]) ∨
    (w.extractLsb 15 12 = 0xF#4 ∧
      w.extractLsb 7 0 ∉ [0x07#8, 0x0A#8, 0x15#8, 0x18#8, 0x1E#8, 0x29#8, 0x33#8, 0x55#8, 0x65#8])

/-- Family 0 under every P_0XE_WILDCARD (R76). -/
def Obligations.FamilyZeroFollowsItsWildcard : Prop :=
  ∀ (p : Params) (w : Word), w.extractLsb 15 12 = 0x0#4 →
    (w = 0x00E0#16 → decode p w = .ok .cls) ∧
    (w = 0x00EE#16 → decode p w = .ok .ret) ∧
    (w.extractLsb 11 8 ≠ 0#4 → w.extractLsb 7 0 = 0xE0#8 ∨ w.extractLsb 7 0 = 0xEE#8 →
      decode p w = match p.zeroXE with
        | .unknown => .error (.unknownOpcode w)
        | .clsRet => .ok (if w.extractLsb 7 0 = 0xE0#8 then .cls else .ret)
        | .sys => .ok (.sys (w.extractLsb 11 0))) ∧
    (w.extractLsb 7 0 ≠ 0xE0#8 → w.extractLsb 7 0 ≠ 0xEE#8 → decode p w = .ok (.sys (w.extractLsb 11 0)))

/-- Families 5 and 9 under every P_SKIP_N_WILDCARD (R77). -/
def Obligations.RegisterSkipsFollowTheirWildcard : Prop :=
  ∀ (p : Params) (x y n : Nibble),
    decode p (wordAXYN 0x5#4 x y n) =
      (if n = 0#4 ∨ p.skipN = .accept then .ok (.seReg x y) else .error (.unknownOpcode (wordAXYN 0x5#4 x y n))) ∧
    decode p (wordAXYN 0x9#4 x y n) =
      (if n = 0#4 ∨ p.skipN = .accept then .ok (.sneReg x y) else .error (.unknownOpcode (wordAXYN 0x9#4 x y n)))

/-- Words written out from R78's patterns, one or more of every family, decode to what they stand for. -/
def Obligations.WrittenOutWordsDecode : Prop :=
  decode Config.defaults 0b0000000011100000#16 = .ok .cls ∧
  decode Config.defaults 0b0110000000001010#16 = .ok (.ldImm 0x0#4 0x0A#8) ∧
  decode Config.defaults 0b1000000000010100#16 = .ok (.addReg 0x0#4 0x1#4) ∧
  decode Config.defaults 0b0010001100000000#16 = .ok (.call 0x300#12) ∧
  decode Config.defaults 0b1101000100100011#16 = .ok (.drw 0x1#4 0x2#4 0x3#4) ∧
  decode Config.defaults 0b1110010010011110#16 = .ok (.skp 0x4#4) ∧
  decode Config.defaults 0b1111010100110011#16 = .ok (.ldBcd 0x5#4) ∧
  decode Config.defaults 0b1010001011110000#16 = .ok (.ldI 0x2F0#12)

/-! ### The step (spec/40_step_engine.md) -/

/-- A step whose bytes at pc decode to `i` is `exec i` on the state with both timers counted down, pc past the word
and the result port at NO_CHANGE; a completed instruction's state is committed and the next inputs take their
place (R90). The last two are the model's (notes/assumptions/7.md, 9.md). -/
def Obligations.StepRunsTheDecodedInstruction : Prop :=
  ∀ (s : State) (i : Instr), s.pc.toNat ≤ 0xFFE →
    decode s.params (s.mem.read s.pc.toNat ++ s.mem.read (s.pc.toNat + 1)) = .ok i →
    step s = match exec i { s with dt := s.dt - (if s.dt = 0#8 then 0#8 else 1#8),
                                   st := s.st - (if s.st = 0#8 then 0#8 else 1#8),
                                   pc := s.pc + 2#16, result := .noChange } with
      | .next t => .next { t with inputs := t.inputs.tail, tick := t.tick + 1 }
      | .fault f => .fault f
      | .refused r => .refused r

/-- The fetch: OutOfMemory(pc) from 0x1000 on, MemOutOfRange(0x1000) at 0xFFF, and at every other pc, odd or even,
the two bytes M[pc] ++ M[pc+1] (R91). -/
def Obligations.FetchReadsTwoBytesOrFaults : Prop :=
  ∀ s : State,
    (0x1000 ≤ s.pc.toNat → step s = .fault (.outOfMemory s.pc)) ∧
    (s.pc.toNat = 0xFFF → step s = .fault (.memOutOfRange 0x1000#16)) ∧
    (s.pc.toNat ≤ 0xFFE → s.fetch = .ok (s.mem.read s.pc.toNat ++ s.mem.read (s.pc.toNat + 1)))

/-- A word that does not decode faults with the word (R213). -/
def Obligations.IllegalWordFaultsWithTheWord : Prop :=
  ∀ (s : State) (e : DecodeError), s.pc.toNat ≤ 0xFFE →
    decode s.params (s.mem.read s.pc.toNat ++ s.mem.read (s.pc.toNat + 1)) = .error e →
    step s = .fault (.unknownOpcode (s.mem.read s.pc.toNat ++ s.mem.read (s.pc.toNat + 1)))

/-- Every completed step counts each timer down once, clamped at 0, before the instruction's effect: LD Vx, DT reads
the decremented value, and LD DT, Vx and LD ST, Vx set the value the step ends with. A step that raises does not
decrement (R92). -/
def Obligations.EveryStepCountsTheTimersDown : Prop :=
  ∀ s : State,
    (∀ t, step s = .next t →
      ∃ i, decode s.params (s.wordAt s.pc.toNat) = .ok i ∧
        t.dt.toNat = (match i with
          | .setDelay x => (s.reg x).toNat
          | _ => s.dt.toNat - 1) ∧
        t.st.toNat = (match i with
          | .setSound x => (s.reg x).toNat
          | _ => s.st.toNat - 1) ∧
        ∀ x, i = .ldDelay x → (t.reg x).toNat = s.dt.toNat - 1) ∧
    (∀ f, step s = .fault f → (transact s).1.dt = s.dt ∧ (transact s).1.st = s.st)

/-- The net effect of a completed step on pc, for every instruction (R25's table). -/
def Obligations.EveryStepMovesThePcAsTabled : Prop :=
  ∀ (s t : State), step s = .next t →
    ∃ i, decode s.params (s.wordAt s.pc.toNat) = .ok i ∧
      match i with
      | .seImm x kk => t.pc.toNat = s.pc.toNat + (if s.reg x = kk then 4 else 2)
      | .sneImm x kk => t.pc.toNat = s.pc.toNat + (if s.reg x = kk then 2 else 4)
      | .seReg x y => t.pc.toNat = s.pc.toNat + (if s.reg x = s.reg y then 4 else 2)
      | .sneReg x y => t.pc.toNat = s.pc.toNat + (if s.reg x = s.reg y then 2 else 4)
      | .skp x => t.pc.toNat =
          s.pc.toNat + (if (s.reg x).toNat < 16 ∧ s.keys.getLsbD (s.reg x).toNat = true then 4 else 2)
      | .sknp x => t.pc.toNat =
          s.pc.toNat + (if (s.reg x).toNat < 16 ∧ s.keys.getLsbD (s.reg x).toNat = true then 2 else 4)
      | .jp nnn => t.pc.toNat = nnn.toNat
      | .call nnn => t.pc.toNat = nnn.toNat
      | .jpV0 nnn => t.pc.toNat = nnn.toNat + (s.reg 0#4).toNat
      | .ret => s.stack.head? = some t.pc
      | .ldKey _ => t.pc.toNat = s.pc.toNat + (if s.keys = 0#16 then 0 else 2)
      | _ => t.pc.toNat = s.pc.toNat + 2

/-- A completed step reports DISPLAY_UPDATED for CLS and DRW and NO_CHANGE for every other instruction; a faulting
step reports FAULT with its cause and info (R47). -/
def Obligations.StepReportsItsResult : Prop :=
  ∀ s : State,
    (∀ t, step s = .next t → ∃ i, decode s.params (s.wordAt s.pc.toNat) = .ok i ∧
      (transact s).2 = .done (if displays i then .displayUpdated else .noChange)) ∧
    (∀ f, step s = .fault f → (transact s).2 = .fault f.cause f.info)

/-! ### Faults (spec/60_exceptions.md) -/

/-- A faulting step leaves V, I, pc, S, DT, ST, M and FB exactly as they were (R220). -/
def Obligations.FaultLeavesTheStateUntouched : Prop :=
  ∀ (s : State) (f : Fault), step s = .fault f →
    (transact s).2 = .fault f.cause f.info ∧
    (transact s).1.v = s.v ∧ (transact s).1.i = s.i ∧ (transact s).1.pc = s.pc ∧
    (transact s).1.stack = s.stack ∧ (transact s).1.dt = s.dt ∧ (transact s).1.st = s.st ∧
    (transact s).1.mem = s.mem ∧ (transact s).1.fb = s.fb

/-- A fault does not depend on the inputs, so every later step raises it again with the same info (R223). -/
def Obligations.FaultRepeatsWhateverTheInputs : Prop :=
  ∀ (s : State) (f : Fault), step s = .fault f →
    (∀ (inputs : List Input) (tick : Nat), step { s with inputs := inputs, tick := tick } = .fault f) ∧
    step (transact s).1 = .fault f

/-- The cause code and the info value of each fault (R211's table). -/
def Obligations.FaultCausesAreAsTabled : Prop :=
  ∀ v : Word,
    (Fault.unknownOpcode v).cause = 1#4 ∧ (Fault.unknownOpcode v).info = v ∧
    (Fault.outOfMemory v).cause = 2#4 ∧ (Fault.outOfMemory v).info = v ∧
    (Fault.stackUnderflow v).cause = 3#4 ∧ (Fault.stackUnderflow v).info = v ∧
    (Fault.memOutOfRange v).cause = 4#4 ∧ (Fault.memOutOfRange v).info = v ∧
    (Fault.stackOverflow v).cause = 5#4 ∧ (Fault.stackOverflow v).info = v ∧
    (Fault.pointerOverflow v).cause = 6#4 ∧ (Fault.pointerOverflow v).info = v ∧
    (Fault.reservedWrite v).cause = 7#4 ∧ (Fault.reservedWrite v).info = v

/-- Every instruction completes or raises the one execution fault R211 and R221 give it; no instruction is refused,
and every instruction but the seven named completes in every state. -/
def Obligations.OnlyTheNamedFaultsAreRaised : Prop :=
  ∀ (i : Instr) (s : State),
    (∃ t, exec i s = .next t) ∨
    match i with
    | .ret => exec i s = .fault (.stackUnderflow (s.pc - 2#16)) ∧ s.stack = []
    | .call _ => exec i s = .fault (.stackOverflow (s.pc - 2#16)) ∧ s.params.stackDepth = some s.stack.length
    | .addI x => exec i s = .fault (.pointerOverflow s.i) ∧ 0xFFFF < s.i.toNat + (s.reg x).toNat
    | .drw _ _ n => exec i s = .fault (.memOutOfRange (BitVec.ofNat 16 (max s.i.toNat 0x1000))) ∧
        1 ≤ n.toNat ∧ 0xFFF < s.i.toNat + n.toNat - 1
    | .loadRegs x => exec i s = .fault (.memOutOfRange (BitVec.ofNat 16 (max s.i.toNat 0x1000))) ∧
        0xFFF < s.i.toNat + x.toNat
    | .ldBcd _ =>
        (exec i s = .fault (.memOutOfRange (BitVec.ofNat 16 (max s.i.toNat 0x1000))) ∧ 0xFFF < s.i.toNat + 2) ∨
        (exec i s = .fault (.reservedWrite s.i) ∧ s.params.reservedWrite = .fault ∧ s.i.toNat < 0x200)
    | .storeRegs x =>
        (exec i s = .fault (.memOutOfRange (BitVec.ofNat 16 (max s.i.toNat 0x1000))) ∧
          0xFFF < s.i.toNat + x.toNat) ∨
        (exec i s = .fault (.reservedWrite s.i) ∧ s.params.reservedWrite = .fault ∧ s.i.toNat < 0x200)
    | _ => False

/-- An access that reaches past 0xFFF raises MemOutOfRange with the first such address: the fetch at 0xFFF, and the
block of each instruction that accesses one (R214). -/
def Obligations.BlockPastTheEndFaults : Prop :=
  ∀ (s : State) (x y n : Nibble),
    (s.pc.toNat = 0xFFF → step s = .fault (.memOutOfRange 0x1000#16)) ∧
    (1 ≤ n.toNat → 0xFFF < s.i.toNat + n.toNat - 1 →
      exec (.drw x y n) s = .fault (.memOutOfRange (BitVec.ofNat 16 (max s.i.toNat 0x1000)))) ∧
    (0xFFF < s.i.toNat + 2 →
      exec (.ldBcd x) s = .fault (.memOutOfRange (BitVec.ofNat 16 (max s.i.toNat 0x1000)))) ∧
    (0xFFF < s.i.toNat + x.toNat →
      exec (.storeRegs x) s = .fault (.memOutOfRange (BitVec.ofNat 16 (max s.i.toNat 0x1000))) ∧
      exec (.loadRegs x) s = .fault (.memOutOfRange (BitVec.ofNat 16 (max s.i.toNat 0x1000))))

/-- With P_RESERVED_WRITE = FAULT a store inside memory that starts below 0x200 raises ReservedWrite with its first
such address; with WRITE none does (R218). -/
def Obligations.ReservedStoreFaultsOnlyWhenAsked : Prop :=
  ∀ (s : State) (x : Nibble),
    (s.params.reservedWrite = .fault → s.i.toNat < 0x200 →
      exec (.ldBcd x) s = .fault (.reservedWrite s.i) ∧ exec (.storeRegs x) s = .fault (.reservedWrite s.i)) ∧
    (s.params.reservedWrite = .write → ∀ a,
      exec (.ldBcd x) s ≠ .fault (.reservedWrite a) ∧ exec (.storeRegs x) s ≠ .fault (.reservedWrite a))

/-! ### Control flow (spec/41_control_flow.md) -/

/-- SYS nnn completes with no effect (R101). -/
def Obligations.SysHasNoEffect : Prop :=
  ∀ (nnn : Addr) (s : State), exec (.sys nnn) s = .next s

/-- JP nnn goes to nnn (R103). -/
def Obligations.JumpGoesToItsAddress : Prop :=
  ∀ (nnn : Addr) (s : State), CompletesWith (.jp nnn) s fun t =>
    t.pc.toNat = nnn.toNat ∧ t = { s with pc := t.pc }

/-- JP V0, nnn goes to nnn + V0, not reduced to 12 bits (R109). -/
def Obligations.JumpV0AddsRegisterZero : Prop :=
  ∀ (nnn : Addr) (s : State), CompletesWith (.jpV0 nnn) s fun t =>
    t.pc.toNat = nnn.toNat + (s.reg 0#4).toNat ∧ t = { s with pc := t.pc }

/-- CALL nnn pushes pc, the address after it, and goes to nnn; on a full stack of finite STACK_DEPTH it raises
StackOverflow with its own address (R104, R216). `pc` is already past the word. -/
def Obligations.CallPushesTheReturnAddress : Prop :=
  ∀ (nnn : Addr) (s : State),
    (s.params.stackDepth ≠ some s.stack.length → CompletesWith (.call nnn) s fun t =>
      t.pc.toNat = nnn.toNat ∧ t.stack = s.pc :: s.stack ∧ t = { s with pc := t.pc, stack := t.stack }) ∧
    (s.params.stackDepth = some s.stack.length →
      exec (.call nnn) s = .fault (.stackOverflow (s.pc - 2#16)))

/-- RET pops the most recent entry into pc; on an empty stack it raises StackUnderflow with its own address
(R102, R215). `pc` is already past the word. -/
def Obligations.ReturnPopsTheStack : Prop :=
  ∀ s : State,
    (∀ top rest, s.stack = top :: rest →
      exec .ret s = .next { s with pc := top, stack := rest }) ∧
    (s.stack = [] → exec .ret s = .fault (.stackUnderflow (s.pc - 2#16)))

/-- A CALL followed at once by RET leaves pc after the CALL and the stack as it was (R104's example, W9). -/
def Obligations.CallThenReturnComesBack : Prop :=
  ∀ (s : State) (nnn : Addr), s.pc.toNat ≤ 0xFFE → nnn.toNat ≤ 0xFFE →
    s.wordAt s.pc.toNat = 0x2#4 ++ nnn → s.wordAt nnn.toNat = 0x00EE#16 →
    s.params.stackDepth ≠ some s.stack.length →
    ∃ t u, step s = .next t ∧ step t = .next u ∧
      t.pc.toNat = nnn.toNat ∧ t.stack = (s.pc + 2#16) :: s.stack ∧
      u.pc = s.pc + 2#16 ∧ u.stack = s.stack ∧ u.v = s.v ∧ u.mem = s.mem

/-- The four compare skips move pc two further exactly when their condition holds, and nothing else (R105 to
R108). -/
def Obligations.CompareSkips : Prop :=
  ∀ (x y : Nibble) (kk : Byte) (s : State),
    exec (.seImm x kk) s = .next { s with pc := s.pc + (if s.reg x = kk then 2#16 else 0#16) } ∧
    exec (.sneImm x kk) s = .next { s with pc := s.pc + (if s.reg x ≠ kk then 2#16 else 0#16) } ∧
    exec (.seReg x y) s = .next { s with pc := s.pc + (if s.reg x = s.reg y then 2#16 else 0#16) } ∧
    exec (.sneReg x y) s = .next { s with pc := s.pc + (if s.reg x ≠ s.reg y then 2#16 else 0#16) }

/-! ### Registers and arithmetic (spec/42_alu.md) -/

/-- LD Vx, kk (6xkk) and LD Vx, Vy (8xy0) set V[x] and nothing else (R121, R123). -/
def Obligations.LoadsSetTheRegister : Prop :=
  ∀ (x y : Nibble) (kk : Byte) (s : State),
    encode (.ldImm x kk) = 0x6#4 ++ x ++ kk ∧ encode (.ldReg x y) = 0x8#4 ++ x ++ y ++ 0x0#4 ∧
    (CompletesWith (.ldImm x kk) s fun t => t.reg x = kk ∧ KeepsRegsBut [x] s t ∧ t = { s with v := t.v }) ∧
    (CompletesWith (.ldReg x y) s fun t => t.reg x = s.reg y ∧ KeepsRegsBut [x] s t ∧ t = { s with v := t.v })

/-- OR (8xy1), AND (8xy2) and XOR (8xy3) set each bit of V[x] from the bits of V[x] and V[y]; VF stays unless x = 0xF
(R124 to R126). -/
def Obligations.LogicSetsEachBit : Prop :=
  ∀ (x y : Nibble) (s : State),
    encode (.orReg x y) = 0x8#4 ++ x ++ y ++ 0x1#4 ∧ encode (.andReg x y) = 0x8#4 ++ x ++ y ++ 0x2#4 ∧
    encode (.xorReg x y) = 0x8#4 ++ x ++ y ++ 0x3#4 ∧
    (CompletesWith (.orReg x y) s fun t =>
      (∀ k, (t.reg x).getLsbD k = ((s.reg x).getLsbD k || (s.reg y).getLsbD k)) ∧
      KeepsRegsBut [x] s t ∧ t = { s with v := t.v }) ∧
    (CompletesWith (.andReg x y) s fun t =>
      (∀ k, (t.reg x).getLsbD k = ((s.reg x).getLsbD k && (s.reg y).getLsbD k)) ∧
      KeepsRegsBut [x] s t ∧ t = { s with v := t.v }) ∧
    (CompletesWith (.xorReg x y) s fun t =>
      (∀ k, (t.reg x).getLsbD k = ((s.reg x).getLsbD k ^^ (s.reg y).getLsbD k)) ∧
      KeepsRegsBut [x] s t ∧ t = { s with v := t.v })

/-- ADD Vx, kk (7xkk): the sum mod 256, then VF the carry, for every x (R122). -/
def Obligations.AddImmediateSetsCarry : Prop :=
  ∀ (x : Nibble) (kk : Byte) (s : State), encode (.addImm x kk) = 0x7#4 ++ x ++ kk ∧
    CompletesWith (.addImm x kk) s fun t =>
    (x ≠ vf → (t.reg x).toNat = ((s.reg x).toNat + kk.toNat) % 256) ∧
    (t.reg vf).toNat = (if (s.reg x).toNat + kk.toNat > 255 then 1 else 0) ∧
    KeepsRegsBut [x, vf] s t ∧ t = { s with v := t.v }

/-- ADD Vx, Vy (8xy4): the sum mod 256, then VF the carry, for every x and y (R127). -/
def Obligations.AddRegistersSetsCarry : Prop :=
  ∀ (x y : Nibble) (s : State), encode (.addReg x y) = 0x8#4 ++ x ++ y ++ 0x4#4 ∧
    CompletesWith (.addReg x y) s fun t =>
    (x ≠ vf → (t.reg x).toNat = ((s.reg x).toNat + (s.reg y).toNat) % 256) ∧
    (t.reg vf).toNat = (if (s.reg x).toNat + (s.reg y).toNat > 255 then 1 else 0) ∧
    KeepsRegsBut [x, vf] s t ∧ t = { s with v := t.v }

/-- SUB (8xy5) and SUBN (8xy7): the difference mod 256, then VF 1 exactly when no borrow was needed (R128, R130). -/
def Obligations.SubtractionsSetNotBorrow : Prop :=
  ∀ (x y : Nibble) (s : State),
    encode (.sub x y) = 0x8#4 ++ x ++ y ++ 0x5#4 ∧ encode (.subn x y) = 0x8#4 ++ x ++ y ++ 0x7#4 ∧
    (CompletesWith (.sub x y) s fun t =>
      (x ≠ vf → ((t.reg x).toNat : Int) = ((s.reg x).toNat - (s.reg y).toNat : Int) % 256) ∧
      (t.reg vf).toNat = (if (s.reg x).toNat ≥ (s.reg y).toNat then 1 else 0) ∧
      KeepsRegsBut [x, vf] s t ∧ t = { s with v := t.v }) ∧
    (CompletesWith (.subn x y) s fun t =>
      (x ≠ vf → ((t.reg x).toNat : Int) = ((s.reg y).toNat - (s.reg x).toNat : Int) % 256) ∧
      (t.reg vf).toNat = (if (s.reg y).toNat ≥ (s.reg x).toNat then 1 else 0) ∧
      KeepsRegsBut [x, vf] s t ∧ t = { s with v := t.v })

/-- SHR (8xy6) and SHL (8xyE): half, or the double mod 256, of V[x], then VF the bit shifted out, whatever y is (R129,
R131). -/
def Obligations.ShiftsSetTheBitShiftedOut : Prop :=
  ∀ (x y : Nibble) (s : State),
    encode (.shr x y) = 0x8#4 ++ x ++ y ++ 0x6#4 ∧ encode (.shl x y) = 0x8#4 ++ x ++ y ++ 0xE#4 ∧
    (CompletesWith (.shr x y) s fun t =>
      (x ≠ vf → (t.reg x).toNat = (s.reg x).toNat / 2) ∧ (t.reg vf).toNat = (s.reg x).toNat % 2 ∧
      KeepsRegsBut [x, vf] s t ∧ t = { s with v := t.v }) ∧
    (CompletesWith (.shl x y) s fun t =>
      (x ≠ vf → (t.reg x).toNat = 2 * (s.reg x).toNat % 256) ∧ (t.reg vf).toNat = (s.reg x).toNat / 128 ∧
      KeepsRegsBut [x, vf] s t ∧ t = { s with v := t.v })

/-- RND sets V[x] to the step's random byte masked by kk, for every byte the host may offer (R133). -/
def Obligations.RandomIsTheOfferedByteMasked : Prop :=
  ∀ (x : Nibble) (kk : Byte) (s : State),
    (CompletesWith (.rnd x kk) s fun t =>
      (∀ k, (t.reg x).getLsbD k = (s.rnd.getLsbD k && kk.getLsbD k)) ∧
      KeepsRegsBut [x] s t ∧ t = { s with v := t.v }) ∧
    (∀ (offered : Input) (rest : List Input), s.inputs = offered :: rest → s.rnd = offered.rnd)

/-- The seven flag writers leave 0 or 1 in VF, and no other instruction changes VF unless it names register 0xF as a
destination (R22, R247). -/
def Obligations.OnlyFlagWritersClobberVF : Prop :=
  ∀ (i : Instr) (s t : State), exec i s = .next t →
    match i with
    | .addImm _ _ | .addReg _ _ | .sub _ _ | .subn _ _ | .shr _ _ | .shl _ _ | .drw _ _ _ =>
        t.reg vf = 0#8 ∨ t.reg vf = 1#8
    | .ldImm x _ | .ldReg x _ | .orReg x _ | .andReg x _ | .xorReg x _ | .rnd x _ | .ldKey x | .ldDelay x
    | .loadRegs x => x ≠ vf → t.reg vf = s.reg vf
    | _ => t.reg vf = s.reg vf

/-! ### Display (spec/43_display.md) -/

/-- CLS (00E0) sets every cell to 0, reports DISPLAY_UPDATED and changes nothing else (R151, R152). -/
def Obligations.ClearSetsEveryCellToZero : Prop :=
  encode .cls = 0x00E0#16 ∧ ∀ s : State, CompletesWith .cls s fun t =>
    (∀ r c, cell t.fb r c = false) ∧ t.result = .displayUpdated ∧ t = { s with fb := t.fb, result := t.result }

/-- DRW Vx, Vy, n whose rows lie in memory (or n = 0) XORs each cell of the grid with the sprite bit that falls on
it, sets VF to 1 exactly when a lit cell met a sprite bit 1, and reports DISPLAY_UPDATED, for every x and y
(R150, R154). -/
def Obligations.DrawXorsTheSpriteOntoTheGrid : Prop :=
  ∀ (x y n : Nibble) (s : State), n = 0#4 ∨ s.i.toNat + n.toNat ≤ 0x1000 →
    CompletesWith (.drw x y n) s fun t =>
      (∀ r < 32, ∀ c < 64, cell t.fb r c =
        ((cell s.fb r c) ^^ s.spriteOn (s.reg x).toNat (s.reg y).toNat n.toNat r c)) ∧
      ((∃ r < 32, ∃ c < 64, cell s.fb r c = true ∧
          s.spriteOn (s.reg x).toNat (s.reg y).toNat n.toNat r c = true) → t.reg vf = 1#8) ∧
      ((∀ r < 32, ∀ c < 64, cell s.fb r c = true →
          s.spriteOn (s.reg x).toNat (s.reg y).toNat n.toNat r c = false) → t.reg vf = 0#8) ∧
      KeepsRegsBut [vf] s t ∧ t.result = .displayUpdated ∧
      t = { s with v := t.v, fb := t.fb, result := t.result }

/-- Drawing the same sprite at the same place twice gives the buffer back, and the second draw collides exactly when
the first turned some cell from 0 to 1 (R155 c). -/
def Obligations.DrawTwiceRestoresTheBuffer : Prop :=
  ∀ (ox oy : Nat) (rows : List Byte) (fb : Display), rows.length ≤ 15 →
    (draw ox oy rows (draw ox oy rows fb).1).1 = fb ∧
    ((draw ox oy rows (draw ox oy rows fb).1).2 = true ↔
      ∃ r < 32, ∃ c < 64, cell fb r c = false ∧ cell (draw ox oy rows fb).1 r c = true)

/-! ### Keys and timers (spec/44_keys_timers.md) -/

/-- SKP (Ex9E) and SKNP (ExA1) skip exactly when V[x] is, or is not, in the key set; a byte above 15 is never in
it (R170 to R172). -/
def Obligations.KeySkips : Prop :=
  ∀ (x : Nibble) (s : State),
    encode (.skp x) = 0xE#4 ++ x ++ 0x9E#8 ∧ encode (.sknp x) = 0xE#4 ++ x ++ 0xA1#8 ∧
    exec (.skp x) s = .next { s with pc := s.pc +
      (if (s.reg x).toNat < 16 ∧ s.keys.getLsbD (s.reg x).toNat = true then 2#16 else 0#16) } ∧
    exec (.sknp x) s = .next { s with pc := s.pc +
      (if (s.reg x).toNat < 16 ∧ s.keys.getLsbD (s.reg x).toNat = true then 0#16 else 2#16) }

/-- LD Vx, K with no key pressed only rewinds pc by 2; otherwise V[x] is a pressed key, the only one when there is
one (R173). -/
def Obligations.KeyWaitTakesSomePressedKey : Prop :=
  ∀ (x : Nibble) (s : State),
    (s.keys = 0#16 → exec (.ldKey x) s = .next { s with pc := s.pc - 2#16 }) ∧
    (s.keys ≠ 0#16 → CompletesWith (.ldKey x) s fun t =>
      ((t.reg x).toNat < 16 ∧ s.keys.getLsbD (t.reg x).toNat = true) ∧
      KeepsRegsBut [x] s t ∧ t = { s with v := t.v })

/-- LD Vx, DT copies DT; LD DT, Vx and LD ST, Vx write the timer, and nothing else (R174 to R176). -/
def Obligations.TimerTransfers : Prop :=
  ∀ (x : Nibble) (s : State),
    (CompletesWith (.ldDelay x) s fun t => t.reg x = s.dt ∧ KeepsRegsBut [x] s t ∧ t = { s with v := t.v }) ∧
    exec (.setDelay x) s = .next { s with dt := s.reg x } ∧
    exec (.setSound x) s = .next { s with st := s.reg x }

/-- LD Vx, DT, as a whole step, reads DT after the step's decrement (R174, R92). -/
def Obligations.DelayReadSeesTheDecrement : Prop :=
  ∀ (s : State) (x : Nibble), s.pc.toNat ≤ 0xFFE → s.wordAt s.pc.toNat = 0xF#4 ++ x ++ 0x07#8 →
    ∃ t, step s = .next t ∧ (t.reg x).toNat = s.dt.toNat - 1 ∧ t.dt.toNat = s.dt.toNat - 1

/-! ### Memory pointer and blocks (spec/45_memory_pointer.md) -/

/-- LD I, nnn (Annn) sets I to nnn; LD F, Vx (Fx29) sets it to 5 times the low nibble of V[x] (R191, R193). -/
def Obligations.PointerLoads : Prop :=
  ∀ (nnn : Addr) (x : Nibble) (s : State),
    encode (.ldI nnn) = 0xA#4 ++ nnn ∧ encode (.ldFont x) = 0xF#4 ++ x ++ 0x29#8 ∧
    (CompletesWith (.ldI nnn) s fun t => t.i.toNat = nnn.toNat ∧ t = { s with i := t.i }) ∧
    (CompletesWith (.ldFont x) s fun t => t.i.toNat = 5 * ((s.reg x).toNat % 16) ∧ t = { s with i := t.i })

/-- ADD I, Vx (Fx1E) adds without wrap and writes no flag; a sum above 0xFFFF raises PointerOverflow(I) (R192, R217). -/
def Obligations.PointerAddFaultsInsteadOfWrapping : Prop :=
  ∀ (x : Nibble) (s : State),
    encode (.addI x) = 0xF#4 ++ x ++ 0x1E#8 ∧
    (s.i.toNat + (s.reg x).toNat ≤ 0xFFFF → CompletesWith (.addI x) s fun t =>
      t.i.toNat = s.i.toNat + (s.reg x).toNat ∧ t = { s with i := t.i }) ∧
    (0xFFFF < s.i.toNat + (s.reg x).toNat → exec (.addI x) s = .fault (.pointerOverflow s.i))

/-- LD B, Vx stores the three decimal digits of V[x], hundreds first, at I, I+1, I+2, and every other byte of memory
reads as before (R194). Memory is in canonical form. -/
def Obligations.BcdStoresTheDigits : Prop :=
  ∀ (x : Nibble) (s : State), s.mem.wf → s.mayStore 3 → CompletesWith (.ldBcd x) s fun t =>
    (t.mem.read s.blockBase).toNat ≤ 2 ∧ (t.mem.read (s.blockBase + 1)).toNat ≤ 9 ∧
    (t.mem.read (s.blockBase + 2)).toNat ≤ 9 ∧
    (t.mem.read s.blockBase).toNat * 100 + (t.mem.read (s.blockBase + 1)).toNat * 10 +
      (t.mem.read (s.blockBase + 2)).toNat = (s.reg x).toNat ∧
    (∀ a, ¬ (s.blockBase ≤ a ∧ a < s.blockBase + 3) → t.mem.read a = s.mem.read a) ∧
    t = { s with mem := t.mem }

/-- LD [I], Vx stores V0..Vx at I, I+1, ..., I+x, and every other byte of memory reads as before (R195). Memory is in
canonical form. -/
def Obligations.RegisterDumpStoresTheRegisters : Prop :=
  ∀ (x : Nibble) (s : State), s.mem.wf → s.mayStore (x.toNat + 1) → CompletesWith (.storeRegs x) s fun t =>
    (∀ k : Nibble, k.toNat ≤ x.toNat → t.mem.read (s.blockBase + k.toNat) = s.reg k) ∧
    (∀ a, ¬ (s.blockBase ≤ a ∧ a < s.blockBase + (x.toNat + 1)) → t.mem.read a = s.mem.read a) ∧
    t = { s with mem := t.mem }

/-- LD Vx, [I] loads V0..Vx from I, I+1, ..., I+x, from any region of memory, and changes nothing else (R196). -/
def Obligations.RegisterLoadReadsTheBytes : Prop :=
  ∀ (x : Nibble) (s : State), s.i.toNat + x.toNat ≤ 0xFFF → CompletesWith (.loadRegs x) s fun t =>
    (∀ k : Nibble, k.toNat ≤ x.toNat → t.reg k = s.mem.read (s.i.toNat + k.toNat)) ∧
    (∀ k : Nibble, x.toNat < k.toNat → t.reg k = s.reg k) ∧
    t = { s with v := t.v }

/-- Dumping V0..Vx and loading them back, whatever the registers hold in between, restores V0..Vx (R195, R196). -/
def Obligations.DumpThenLoadRestoresTheRegisters : Prop :=
  ∀ (x : Nibble) (s : State) (v : Vector Byte 16), s.mem.wf → s.mayStore (x.toNat + 1) →
    ∃ t u, exec (.storeRegs x) s = .next t ∧ exec (.loadRegs x) { t with v := v } = .next u ∧
      ∀ k : Nibble, k.toNat ≤ x.toNat → u.reg k = s.reg k

/-- A word stored by LD [I], Vx is what a later fetch at its address reads, big-endian, with nothing between
(R62, R249). -/
def Obligations.FetchSeesStoredBytes : Prop :=
  ∀ (x k : Nibble) (s t : State), s.mem.wf → k.toNat < x.toNat →
    exec (.storeRegs x) s = .next t →
    ({ t with pc := s.i + k.setWidth 16 } : State).fetch = .ok (s.reg k ++ s.reg (k + 1#4))

/-! ### Frames and isolation -/

/-- Every instruction that completes changes only the registers, pieces of state and bytes of memory its row of R20,
R23 and R51 names. Memory is in canonical form. -/
def Obligations.EveryInstructionKeepsItsFrame : Prop :=
  ∀ (i : Instr) (s t : State), s.mem.wf → exec i s = .next t → Frame i s t

/-- Only SKP, SKNP and LD Vx,K read the key set and only RND the random byte: every other instruction does the same
whatever the inputs (R95). -/
def Obligations.OnlyInputInstructionsReadTheInputs : Prop :=
  ∀ (i : Instr) (s : State) (inputs : List Input) (tick : Nat),
    (match i with
      | .skp _ | .sknp _ | .ldKey _ => State.keys { s with inputs := inputs, tick := tick } = s.keys
      | .rnd _ _ => State.rnd { s with inputs := inputs, tick := tick } = s.rnd
      | _ => True) →
    exec i { s with inputs := inputs, tick := tick } =
      match exec i s with
      | .next t => .next { t with inputs := inputs, tick := tick }
      | .fault f => .fault f
      | .refused r => .refused r

/-! ### Invariants -/

/-- Every step keeps the invariant: memory canonical, pc at most 0x10FE, stack entries at most 0x1000, the stack
within its depth (R24, R27). -/
def Obligations.EveryStepKeepsTheInvariant : Prop :=
  ∀ s t : State, s.Inv → step s = .next t → t.Inv

/-- Reset meets the invariant. -/
def Obligations.ResetMeetsTheInvariant : Prop := State.reset.Inv

/-- With P_RESERVED_WRITE = FAULT no step changes a byte of 0x000..0x1FF, so the font is never mutated, and the
parameter stays (R57, R218). -/
def Obligations.ReservedRegionIsNeverWritten : Prop :=
  ∀ s t : State, s.mem.wf → s.params.reservedWrite = .fault → step s = .next t →
    t.params.reservedWrite = .fault ∧ ∀ a < 0x200, t.mem.read a = s.mem.read a

/-! ### Reset and the end of a run (spec/70_reset_and_hazards.md) -/

/-- Reset, what the spec gives: pc 0x200, an empty stack, glyph bytes at 0x000..0x04F (R242; the font is R31's
default, notes/assumptions/6.md). -/
def Obligations.ResetIsAsTheSpecGives : Prop :=
  State.reset.pc = 0x200#16 ∧ State.reset.stack = [] ∧
  State.reset.mem.readBlock 0x000 5 = [0xF0#8, 0x90#8, 0x90#8, 0x90#8, 0xF0#8] ∧
  State.reset.mem.readBlock 0x04B 5 = [0xF0#8, 0x80#8, 0xF0#8, 0x80#8, 0x80#8]

/-- Construction places the font at 0x000..0x04F, the image at 0x200 on, the fill everywhere else, takes every open
reset value as given, and starts at 0x200 with an empty stack; an image above 0xE00 bytes makes no machine (R241,
R242, R243). That the parameters stand in State (`s.params = p`, notes/assumptions/10.md) and that memory is in
canonical form (`s.mem.wf`, notes/assumptions/19.md) are the model's choices. -/
def Obligations.ConstructionPlacesFontImageAndFill : Prop :=
  ∀ (p : Params) (b : Boot) (image : List Byte),
    (image.length ≤ 0xE00 → ∃ s, construct p b image = some s ∧
      s.pc = 0x200#16 ∧ s.stack = [] ∧ s.v = b.initV ∧ s.i = b.initI ∧ s.dt = b.initDt ∧ s.st = b.initSt ∧
      s.fb = b.initFb ∧ s.params = p ∧ s.mem.wf ∧
      (∀ (a : Nat) (h : a < 80), s.mem.read a = b.font[a]) ∧
      (∀ (k : Nat) (h : k < image.length), s.mem.read (0x200 + k) = image[k]) ∧
      (∀ a, 80 ≤ a → a < 0x1000 → a < 0x200 ∨ 0x200 + image.length ≤ a → s.mem.read a = b.memFill a)) ∧
    (0xE00 < image.length → construct p b image = none)

/-- Reset is construction from the empty image with the default parameters and zeros (the model's choice of the open
values: notes/assumptions/1.md to 6.md). -/
def Obligations.ResetIsConstructionWithZeros : Prop :=
  construct Config.defaults Boot.zeros [] = some State.reset

/-- After a run ends at L, a step completes, stays at L, and changes nothing but DT and ST, each counted down
(R251). `result`, `inputs` and `tick` are the model's own. -/
def Obligations.EndedRunOnlyCountsTimers : Prop :=
  ∀ (s : State) (l : Addr), s.endsAt l → ∃ t, step s = .next t ∧ t.endsAt l ∧
    t.dt.toNat = s.dt.toNat - 1 ∧ t.st.toNat = s.st.toNat - 1 ∧
    t.v = s.v ∧ t.i = s.i ∧ t.pc = s.pc ∧ t.stack = s.stack ∧ t.mem = s.mem ∧ t.fb = s.fb

/-- The output ports: sound_active is 1 exactly when ST is not 0, and bit r*64+c of fb is FB[r][c] (R48, R49). -/
def Obligations.OutputPortsShowTheState : Prop :=
  ∀ s : State, (s.soundActive = true ↔ s.st.toNat ≠ 0) ∧
    ∀ r < 32, ∀ c < 64, s.fbPort (r * 64 + c) = cell s.fb r c

/-- The port values of a step transaction: `result` is 1 after CLS and DRW and 0 after every other completed
instruction, both without a cause or info; a faulting step gives 2 with its cause and info (R44, R47). -/
def Obligations.StepDrivesItsPorts : Prop :=
  ∀ s : State,
    (∀ t, step s = .next t → ∃ i, decode s.params (s.wordAt s.pc.toNat) = .ok i ∧
      (transact s).2.code = some (if displays i then 1#2 else 0#2) ∧
      (transact s).2.cause = none ∧ (transact s).2.info = none) ∧
    (∀ f, step s = .fault f → (transact s).2.code = some 2#2 ∧
      (transact s).2.cause = some f.cause ∧ (transact s).2.info = some f.info)
end

