-- ==== Sys2Proof/Laws/Decode.lean ====
section
/-! SUPPORT. The fields of the words the encoder builds, and the bytes of a word, bit by bit. -/

namespace Sys2Proof

/-! ### Bits of a concatenation -/

theorem getLsbD_wordOfBytes (hi lo : Byte) (k : Nat) :
    (wordOfBytes hi lo).getLsbD k = if k < 8 then lo.getLsbD k else hi.getLsbD (k - 8) := by
  exact BitVec.getLsbD_append (x := hi) (y := lo) (i := k)

theorem getLsbD_wordANNN (a : Nibble) (nnn : Addr) (k : Nat) :
    (wordANNN a nnn).getLsbD k = if k < 12 then nnn.getLsbD k else a.getLsbD (k - 12) := by
  exact BitVec.getLsbD_append (x := a) (y := nnn) (i := k)

theorem getLsbD_addrXKK (x : Nibble) (kk : Byte) (k : Nat) :
    (addrXKK x kk).getLsbD k = if k < 8 then kk.getLsbD k else x.getLsbD (k - 8) := by
  exact BitVec.getLsbD_append (x := x) (y := kk) (i := k)

theorem getLsbD_byteYN (y n : Nibble) (k : Nat) :
    (byteYN y n).getLsbD k = if k < 4 then n.getLsbD k else y.getLsbD (k - 4) := by
  exact BitVec.getLsbD_append (x := y) (y := n) (i := k)

/-! ### The patterns as concatenations of their fields -/

theorem wordAXKK_append (a x : Nibble) (kk : Byte) : wordAXKK a x kk = a ++ x ++ kk := by
  apply BitVec.eq_of_getLsbD_eq
  intro k hk
  rw [wordAXKK, getLsbD_wordANNN, getLsbD_addrXKK]
  simp only [BitVec.getLsbD_append]
  repeat' split
  all_goals first | rfl | omega

theorem wordAXYN_append (a x y n : Nibble) : wordAXYN a x y n = a ++ x ++ y ++ n := by
  apply BitVec.eq_of_getLsbD_eq
  intro k hk
  rw [wordAXYN, wordAXKK, getLsbD_wordANNN, getLsbD_addrXKK, getLsbD_byteYN]
  simp only [BitVec.getLsbD_append]
  repeat' split
  all_goals first | rfl | omega

/-! ### The bytes of a word -/

@[simp] theorem wordOfBytes_bytes (w : Word) : wordOfBytes (highByte w) (lowByte w) = w := by
  apply BitVec.eq_of_getLsbD_eq
  intro k hk
  simp only [getLsbD_wordOfBytes, highByte, lowByte, BitVec.getLsbD_extractLsb']
  split
  · simp [*]
  · have : k - 8 < 8 := by omega
    simp [this, show 8 + (k - 8) = k by omega]

@[simp] theorem highByte_wordOfBytes (hi lo : Byte) : highByte (wordOfBytes hi lo) = hi := by
  apply BitVec.eq_of_getLsbD_eq
  intro k hk
  simp [highByte, getLsbD_wordOfBytes, hk]

@[simp] theorem lowByte_wordOfBytes (hi lo : Byte) : lowByte (wordOfBytes hi lo) = lo := by
  apply BitVec.eq_of_getLsbD_eq
  intro k hk
  simp [lowByte, getLsbD_wordOfBytes, hk]

/-! ### Fields of a ++ nnn -/

@[simp] theorem fieldA_wordANNN (a : Nibble) (nnn : Addr) : fieldA (wordANNN a nnn) = a := by
  apply BitVec.eq_of_getLsbD_eq
  intro k hk
  simp [fieldA, getLsbD_wordANNN, hk]

@[simp] theorem fieldNNN_wordANNN (a : Nibble) (nnn : Addr) : fieldNNN (wordANNN a nnn) = nnn := by
  apply BitVec.eq_of_getLsbD_eq
  intro k hk
  simp [fieldNNN, getLsbD_wordANNN, hk]

/-- x is the high nibble of nnn. -/
@[simp] theorem fieldX_wordANNN (a : Nibble) (nnn : Addr) : fieldX (wordANNN a nnn) = nnn.extractLsb' 8 4 := by
  apply BitVec.eq_of_getLsbD_eq
  intro k hk
  simp [fieldX, getLsbD_wordANNN, hk, show 8 + k < 12 by omega]

/-- kk is the low byte of nnn. -/
@[simp] theorem fieldKK_wordANNN (a : Nibble) (nnn : Addr) : fieldKK (wordANNN a nnn) = nnn.extractLsb' 0 8 := by
  apply BitVec.eq_of_getLsbD_eq
  intro k hk
  simp [fieldKK, getLsbD_wordANNN, hk, show k < 12 by omega]

/-! ### Fields of a ++ x ++ kk -/

@[simp] theorem fieldA_wordAXKK (a x : Nibble) (kk : Byte) : fieldA (wordAXKK a x kk) = a := fieldA_wordANNN a _

@[simp] theorem fieldX_wordAXKK (a x : Nibble) (kk : Byte) : fieldX (wordAXKK a x kk) = x := by
  rw [wordAXKK, fieldX_wordANNN]
  apply BitVec.eq_of_getLsbD_eq
  intro k hk
  simp [getLsbD_addrXKK, hk]

@[simp] theorem fieldKK_wordAXKK (a x : Nibble) (kk : Byte) : fieldKK (wordAXKK a x kk) = kk := by
  rw [wordAXKK, fieldKK_wordANNN]
  apply BitVec.eq_of_getLsbD_eq
  intro k hk
  simp [getLsbD_addrXKK, hk]

/-- y is the high nibble of kk. -/
@[simp] theorem fieldY_wordAXKK (a x : Nibble) (kk : Byte) : fieldY (wordAXKK a x kk) = kk.extractLsb' 4 4 := by
  apply BitVec.eq_of_getLsbD_eq
  intro k hk
  simp only [fieldY, wordAXKK, BitVec.getLsbD_extractLsb', getLsbD_wordANNN, getLsbD_addrXKK,
    if_pos (show 4 + k < 12 by omega), if_pos (show 4 + k < 8 by omega)]

/-- n is the low nibble of kk. -/
@[simp] theorem fieldN_wordAXKK (a x : Nibble) (kk : Byte) : fieldN (wordAXKK a x kk) = kk.extractLsb' 0 4 := by
  apply BitVec.eq_of_getLsbD_eq
  intro k hk
  simp only [fieldN, wordAXKK, BitVec.getLsbD_extractLsb', getLsbD_wordANNN, getLsbD_addrXKK,
    if_pos (show 0 + k < 12 by omega), if_pos (show 0 + k < 8 by omega)]

/-! ### Fields of a ++ x ++ y ++ n -/

@[simp] theorem fieldA_wordAXYN (a x y n : Nibble) : fieldA (wordAXYN a x y n) = a := fieldA_wordAXKK a x _

@[simp] theorem fieldX_wordAXYN (a x y n : Nibble) : fieldX (wordAXYN a x y n) = x := fieldX_wordAXKK a x _

@[simp] theorem fieldKK_wordAXYN (a x y n : Nibble) : fieldKK (wordAXYN a x y n) = byteYN y n :=
  fieldKK_wordAXKK a x _

@[simp] theorem fieldY_wordAXYN (a x y n : Nibble) : fieldY (wordAXYN a x y n) = y := by
  rw [wordAXYN, fieldY_wordAXKK]
  apply BitVec.eq_of_getLsbD_eq
  intro k hk
  simp [getLsbD_byteYN, hk]

@[simp] theorem fieldN_wordAXYN (a x y n : Nibble) : fieldN (wordAXYN a x y n) = n := by
  rw [wordAXYN, fieldN_wordAXKK]
  apply BitVec.eq_of_getLsbD_eq
  intro k hk
  simp [getLsbD_byteYN, hk]

/-! ### Every word is its fields -/

theorem word_eq_ANNN (w : Word) : wordANNN (fieldA w) (fieldNNN w) = w := by
  apply BitVec.eq_of_getLsbD_eq
  intro k hk
  simp only [getLsbD_wordANNN, fieldA, fieldNNN, BitVec.getLsbD_extractLsb']
  split
  · simp [*]
  · simp [show k - 12 < 4 by omega, show 12 + (k - 12) = k by omega]

theorem addrXKK_fields (w : Word) : addrXKK (fieldX w) (fieldKK w) = fieldNNN w := by
  apply BitVec.eq_of_getLsbD_eq
  intro k hk
  simp only [getLsbD_addrXKK, fieldX, fieldKK, fieldNNN, BitVec.getLsbD_extractLsb']
  split
  · simp [*]
  · simp [hk, show k - 8 < 4 by omega, show 8 + (k - 8) = k by omega]

theorem byteYN_fields (w : Word) : byteYN (fieldY w) (fieldN w) = fieldKK w := by
  apply BitVec.eq_of_getLsbD_eq
  intro k hk
  simp only [getLsbD_byteYN, fieldY, fieldN, fieldKK, BitVec.getLsbD_extractLsb']
  split
  · simp [*]
  · simp [hk, show k - 4 < 4 by omega, show 4 + (k - 4) = k by omega]

theorem word_eq_AXKK (w : Word) : wordAXKK (fieldA w) (fieldX w) (fieldKK w) = w := by
  rw [wordAXKK, addrXKK_fields, word_eq_ANNN]

theorem word_eq_AXYN (w : Word) : wordAXYN (fieldA w) (fieldX w) (fieldY w) (fieldN w) = w := by
  rw [wordAXYN, byteYN_fields, word_eq_AXKK]

/-! ### The decoder, family by family (R75) -/

section Families
variable {p : Params} {w : Word}

theorem decode_family0 (h : fieldA w = 0x0#4) : decode p w = decode0 p w := by
  simp [decode, h]

theorem decode_family1 (h : fieldA w = 0x1#4) : decode p w = .ok (.jp (fieldNNN w)) := by
  simp [decode, h]

theorem decode_family2 (h : fieldA w = 0x2#4) : decode p w = .ok (.call (fieldNNN w)) := by
  simp [decode, h]

theorem decode_family3 (h : fieldA w = 0x3#4) : decode p w = .ok (.seImm (fieldX w) (fieldKK w)) := by
  simp [decode, h]

theorem decode_family4 (h : fieldA w = 0x4#4) : decode p w = .ok (.sneImm (fieldX w) (fieldKK w)) := by
  simp [decode, h]

theorem decode_family5 (h : fieldA w = 0x5#4) : decode p w = decodeSkipReg p .seReg w := by
  simp [decode, h]

theorem decode_family6 (h : fieldA w = 0x6#4) : decode p w = .ok (.ldImm (fieldX w) (fieldKK w)) := by
  simp [decode, h]

theorem decode_family7 (h : fieldA w = 0x7#4) : decode p w = .ok (.addImm (fieldX w) (fieldKK w)) := by
  simp [decode, h]

theorem decode_family8 (h : fieldA w = 0x8#4) : decode p w = decode8 w := by
  simp [decode, h]

theorem decode_family9 (h : fieldA w = 0x9#4) : decode p w = decodeSkipReg p .sneReg w := by
  simp [decode, h]

theorem decode_familyA (h : fieldA w = 0xA#4) : decode p w = .ok (.ldI (fieldNNN w)) := by
  simp [decode, h]

theorem decode_familyB (h : fieldA w = 0xB#4) : decode p w = .ok (.jpV0 (fieldNNN w)) := by
  simp [decode, h]

theorem decode_familyC (h : fieldA w = 0xC#4) : decode p w = .ok (.rnd (fieldX w) (fieldKK w)) := by
  simp [decode, h]

theorem decode_familyD (h : fieldA w = 0xD#4) : decode p w = .ok (.drw (fieldX w) (fieldY w) (fieldN w)) := by
  simp [decode, h]

theorem decode_familyE (h : fieldA w = 0xE#4) : decode p w = decodeE w := by
  simp [decode, h]

theorem decode_familyF (h : fieldA w = 0xF#4) : decode p w = decodeF w := by
  simp [decode, h]

end Families

/-- A 4-bit field has one of sixteen values. -/
theorem nibble_cases (a : Nibble) :
    a = 0x0#4 ∨ a = 0x1#4 ∨ a = 0x2#4 ∨ a = 0x3#4 ∨ a = 0x4#4 ∨ a = 0x5#4 ∨ a = 0x6#4 ∨ a = 0x7#4 ∨
    a = 0x8#4 ∨ a = 0x9#4 ∨ a = 0xA#4 ∨ a = 0xB#4 ∨ a = 0xC#4 ∨ a = 0xD#4 ∨ a = 0xE#4 ∨ a = 0xF#4 := by
  revert a; decide

end Sys2Proof
end

