-- ==== Sys2Proof/Laws/Memory.lean ====
section
/-! SUPPORT. The laws of memory: a read after a write to the same address gives the value written, a write leaves
every other address alone, and every memory operation keeps the canonical form. -/

namespace Sys2Proof.Machine

/-! ### Read after write -/

/-- Addresses below every listed one read as unlisted. -/
theorem Memory.read_of_lt {m : Memory} {a : Nat} (h : ∀ c ∈ m, a < c.1) : m.read a = Memory.unlisted a := by
  induction m with
  | nil => rfl
  | cons c m ih =>
    obtain ⟨k, b⟩ := c
    have hk : a < k := h (k, b) (by simp)
    rw [Memory.read, if_neg (by omega)]
    exact ih fun c hc => h c (by simp [hc])

/-- What an insertion into a sorted memory leaves at every address. -/
theorem Memory.read_insert {m : Memory} (hm : m.Pairwise (fun c d => c.1 < d.1)) (a : Nat) (b : Byte) (k : Nat) :
    (Memory.insert a b m).read k = if k = a then b else m.read k := by
  induction m with
  | nil =>
    simp only [Memory.insert]
    split
    · next hb => split <;> simp_all [Memory.read]
    · simp only [Memory.read, eq_comm]
  | cons c m ih =>
    obtain ⟨j, v⟩ := c
    rw [List.pairwise_cons] at hm
    obtain ⟨hj, hm⟩ := hm
    have hlow : ∀ a, a ≤ j → Memory.read m a = Memory.unlisted a := fun a ha =>
      Memory.read_of_lt fun c hc => by have := hj c hc; simp only at this; omega
    simp only [Memory.insert]
    by_cases h1 : a < j
    · rw [if_pos h1]
      by_cases hb : b = Memory.unlisted a
      · rw [if_pos hb]
        by_cases hk : k = a
        · subst hk
          rw [if_pos rfl, Memory.read, if_neg (by omega), hlow k (by omega), hb]
        · rw [if_neg hk]
      · rw [if_neg hb, Memory.read]
        simp only [eq_comm]
    · rw [if_neg h1]
      by_cases h2 : a = j
      · subst h2
        rw [if_pos rfl]
        by_cases hb : b = Memory.unlisted a
        · rw [if_pos hb]
          by_cases hk : k = a
          · subst hk; rw [if_pos rfl, hlow k (by omega), hb]
          · rw [if_neg hk, Memory.read, if_neg (by omega)]
        · rw [if_neg hb, Memory.read, Memory.read]
          by_cases hk : k = a
          · subst hk; simp
          · rw [if_neg hk, if_neg (by omega), if_neg (by omega)]
      · rw [if_neg h2, Memory.read, ih hm, Memory.read]
        by_cases hk : k = a
        · subst hk; rw [if_neg (by omega), if_pos rfl, if_pos rfl]
        · simp only [if_neg hk]

/-- An insertion adds no address but its own. -/
theorem Memory.mem_insert {m : Memory} {a : Nat} {b : Byte} {c : Host.Cell} (h : c ∈ Memory.insert a b m) :
    c = (a, b) ∧ b ≠ Memory.unlisted a ∨ c ∈ m := by
  induction m with
  | nil =>
    simp only [Memory.insert] at h
    split at h <;> simp_all
  | cons d m ih =>
    obtain ⟨j, v⟩ := d
    simp only [Memory.insert] at h
    split at h
    · split at h
      · exact .inr h
      · rcases List.mem_cons.1 h with rfl | h
        · exact .inl ⟨rfl, ‹_›⟩
        · exact .inr h
    · split at h
      · split at h
        · exact .inr (List.mem_cons_of_mem _ h)
        · rcases List.mem_cons.1 h with rfl | h
          · exact .inl ⟨rfl, ‹_›⟩
          · exact .inr (List.mem_cons_of_mem _ h)
      · rcases List.mem_cons.1 h with rfl | h
        · exact .inr (by simp)
        · rcases ih h with h | h
          · exact .inl h
          · exact .inr (List.mem_cons_of_mem _ h)

/-- An insertion keeps the addresses strictly rising. -/
theorem Memory.insert_sorted {m : Memory} (hm : m.Pairwise (fun c d => c.1 < d.1)) (a : Nat) (b : Byte) :
    (Memory.insert a b m).Pairwise (fun c d => c.1 < d.1) := by
  induction m with
  | nil =>
    simp only [Memory.insert]
    split <;> simp
  | cons c m ih =>
    obtain ⟨j, v⟩ := c
    have hm' := hm
    rw [List.pairwise_cons] at hm
    obtain ⟨hj, hm⟩ := hm
    simp only [Memory.insert]
    split
    · next h1 =>
      split
      · exact hm'
      · refine List.pairwise_cons.2 ⟨fun d hd => ?_, hm'⟩
        rcases List.mem_cons.1 hd with rfl | hd
        · exact h1
        · have := hj d hd; simp only at this ⊢; omega
    · split
      · next h2 =>
        subst h2
        split
        · exact hm
        · exact List.pairwise_cons.2 ⟨hj, hm⟩
      · refine List.pairwise_cons.2 ⟨fun d hd => ?_, ih hm⟩
        rcases Memory.mem_insert hd with ⟨rfl, -⟩ | hd
        · simp only; omega
        · exact hj d hd

theorem Memory.insert_wf {m : Memory} (hm : m.wf) {a : Nat} (ha : a < Config.memSize) (b : Byte) :
    Memory.wf (Memory.insert a b m) := by
  refine ⟨Memory.insert_sorted hm.1 a b, fun c hc => ?_⟩
  rcases Memory.mem_insert hc with ⟨rfl, hb⟩ | hc
  · exact ⟨ha, hb⟩
  · exact hm.2 c hc

/-- Setting a byte keeps the canonical form. -/
theorem Memory.set_wf {m : Memory} (hm : m.wf) (a : Nat) (b : Byte) : (m.set a b).wf := by
  unfold Memory.set
  split
  · exact Memory.insert_wf hm ‹_› b
  · exact hm

/-- What setting a byte inside memory leaves at every address. -/
theorem Memory.read_set {m : Memory} (hm : m.wf) {a : Nat} (ha : a < Config.memSize) (b : Byte) (k : Nat) :
    (m.set a b).read k = if k = a then b else m.read k := by
  rw [Memory.set, if_pos ha, Memory.read_insert hm.1]

/-! ### Blocks -/

@[simp] theorem Memory.readBlock_length (m : Memory) (a n : Nat) : (m.readBlock a n).length = n := by
  simp [Memory.readBlock]

/-- Byte `k` of a block is the byte at `a + k`. -/
theorem Memory.readBlock_getD (m : Memory) (a : Nat) {n k : Nat} (h : k < n) (d : Byte) :
    (m.readBlock a n).getD k d = m.read (a + k) := by
  rw [List.getD_eq_getElem _ _ (by simpa using h)]
  simp [Memory.readBlock]

/-- Beyond a block's end there is no byte. -/
theorem Memory.readBlock_getD_beyond (m : Memory) (a : Nat) {n k : Nat} (h : n ≤ k) (d : Byte) :
    (m.readBlock a n).getD k d = d := by
  rw [List.getD_eq_default _ _ (by simpa using h)]

theorem Memory.writeBlock_wf {m : Memory} (hm : m.wf) (a : Nat) (bs : List Byte) : (m.writeBlock a bs).wf := by
  induction bs generalizing m a with
  | nil => exact hm
  | cons b bs ih => exact ih (Memory.set_wf hm a b) (a + 1)

/-- What writing a block leaves at every address: the block's bytes inside it, the old bytes outside. -/
theorem Memory.read_writeBlock {m : Memory} (hm : m.wf) {a : Nat} {bs : List Byte}
    (h : a + bs.length ≤ Config.memSize) (k : Nat) :
    (m.writeBlock a bs).read k =
      if a ≤ k ∧ k < a + bs.length then bs.getD (k - a) 0#8 else m.read k := by
  induction bs generalizing m a with
  | nil => rw [if_neg (by simp)]; rfl
  | cons b bs ih =>
    simp only [List.length_cons] at h ⊢
    rw [Memory.writeBlock, ih (Memory.set_wf hm a b) (by omega), Memory.read_set hm (by omega)]
    by_cases h1 : a + 1 ≤ k ∧ k < a + 1 + bs.length
    · rw [if_pos h1, if_pos (by omega), show k - a = (k - (a + 1)) + 1 by omega, List.getD_cons_succ]
    · rw [if_neg h1]
      by_cases h2 : k = a
      · subst h2; rw [if_pos rfl, if_pos (by omega)]; simp
      · rw [if_neg h2, if_neg (by omega)]

/-! ### Construction -/

/-- A memory built from a byte for every address has them all. -/
theorem Memory.read_ofBytes_aux (f : Nat → Byte) (l : List Nat) (a : Nat) :
    Memory.read (l.filterMap fun k => if f k = Memory.unlisted k then none else some (k, f k)) a =
      if a ∈ l then f a else Memory.unlisted a := by
  induction l with
  | nil => rfl
  | cons k l ih =>
    by_cases hk : f k = Memory.unlisted k
    · rw [List.filterMap_cons_none (by simp [hk]), ih]
      by_cases ha : a = k
      · subst ha; simp [hk]
      · simp [ha]
    · rw [List.filterMap_cons_some (b := (k, f k)) (by simp [hk]), Memory.read, ih]
      by_cases ha : k = a
      · subst ha; simp
      · simp [ha, Ne.symm ha]

theorem Memory.read_ofBytes (f : Nat → Byte) {a : Nat} (h : a < Config.memSize) :
    (Memory.ofBytes f).read a = f a := by
  rw [Memory.ofBytes, Memory.read_ofBytes_aux, if_pos (List.mem_range.2 h)]

theorem Memory.ofBytes_wf (f : Nat → Byte) : (Memory.ofBytes f).wf := by
  refine ⟨?_, fun c hc => ?_⟩
  · rw [Memory.ofBytes, List.pairwise_filterMap]
    refine List.Pairwise.imp ?_ (List.pairwise_lt_range (n := Config.memSize))
    intro a b hab c hc d hd
    split at hc <;> simp at hc
    split at hd <;> simp at hd
    subst hc hd
    exact hab
  · obtain ⟨a, ha, hc⟩ := List.mem_filterMap.1 hc
    split at hc <;> simp at hc
    subst hc
    exact ⟨List.mem_range.1 ha, ‹_›⟩

/-- A memory that holds everywhere what unlisted addresses read as lists nothing. -/
theorem Memory.ofBytes_unlisted {f : Nat → Byte} (h : ∀ a, f a = Memory.unlisted a) : Memory.ofBytes f = [] := by
  simp [Memory.ofBytes, h]

/-- The reset memory has the canonical form. -/
theorem Memory.reset_wf : State.reset.mem.wf := by
  simp [State.reset, Memory.wf]

end Sys2Proof.Machine
end

