-- ==== Sys2Proof/Laws/State.lean ====
section
/-! SUPPORT. One lemma per field per update of the state, each true by rfl, and the laws of the register file. -/

namespace Sys2Proof.Machine

section FieldUpdates
variable (s : State)

@[simp] theorem State.setV_v (a : Vector Byte 16) : (s.setV a).v = a := rfl
@[simp] theorem State.setV_i (a : Vector Byte 16) : (s.setV a).i = s.i := rfl
@[simp] theorem State.setV_pc (a : Vector Byte 16) : (s.setV a).pc = s.pc := rfl
@[simp] theorem State.setV_stack (a : Vector Byte 16) : (s.setV a).stack = s.stack := rfl
@[simp] theorem State.setV_dt (a : Vector Byte 16) : (s.setV a).dt = s.dt := rfl
@[simp] theorem State.setV_st (a : Vector Byte 16) : (s.setV a).st = s.st := rfl
@[simp] theorem State.setV_mem (a : Vector Byte 16) : (s.setV a).mem = s.mem := rfl
@[simp] theorem State.setV_fb (a : Vector Byte 16) : (s.setV a).fb = s.fb := rfl
@[simp] theorem State.setV_result (a : Vector Byte 16) : (s.setV a).result = s.result := rfl
@[simp] theorem State.setV_params (a : Vector Byte 16) : (s.setV a).params = s.params := rfl
@[simp] theorem State.setV_inputs (a : Vector Byte 16) : (s.setV a).inputs = s.inputs := rfl
@[simp] theorem State.setV_tick (a : Vector Byte 16) : (s.setV a).tick = s.tick := rfl

@[simp] theorem State.setI_v (a : Word) : (s.setI a).v = s.v := rfl
@[simp] theorem State.setI_i (a : Word) : (s.setI a).i = a := rfl
@[simp] theorem State.setI_pc (a : Word) : (s.setI a).pc = s.pc := rfl
@[simp] theorem State.setI_stack (a : Word) : (s.setI a).stack = s.stack := rfl
@[simp] theorem State.setI_dt (a : Word) : (s.setI a).dt = s.dt := rfl
@[simp] theorem State.setI_st (a : Word) : (s.setI a).st = s.st := rfl
@[simp] theorem State.setI_mem (a : Word) : (s.setI a).mem = s.mem := rfl
@[simp] theorem State.setI_fb (a : Word) : (s.setI a).fb = s.fb := rfl
@[simp] theorem State.setI_result (a : Word) : (s.setI a).result = s.result := rfl
@[simp] theorem State.setI_params (a : Word) : (s.setI a).params = s.params := rfl
@[simp] theorem State.setI_inputs (a : Word) : (s.setI a).inputs = s.inputs := rfl
@[simp] theorem State.setI_tick (a : Word) : (s.setI a).tick = s.tick := rfl

@[simp] theorem State.setPc_v (a : Word) : (s.setPc a).v = s.v := rfl
@[simp] theorem State.setPc_i (a : Word) : (s.setPc a).i = s.i := rfl
@[simp] theorem State.setPc_pc (a : Word) : (s.setPc a).pc = a := rfl
@[simp] theorem State.setPc_stack (a : Word) : (s.setPc a).stack = s.stack := rfl
@[simp] theorem State.setPc_dt (a : Word) : (s.setPc a).dt = s.dt := rfl
@[simp] theorem State.setPc_st (a : Word) : (s.setPc a).st = s.st := rfl
@[simp] theorem State.setPc_mem (a : Word) : (s.setPc a).mem = s.mem := rfl
@[simp] theorem State.setPc_fb (a : Word) : (s.setPc a).fb = s.fb := rfl
@[simp] theorem State.setPc_result (a : Word) : (s.setPc a).result = s.result := rfl
@[simp] theorem State.setPc_params (a : Word) : (s.setPc a).params = s.params := rfl
@[simp] theorem State.setPc_inputs (a : Word) : (s.setPc a).inputs = s.inputs := rfl
@[simp] theorem State.setPc_tick (a : Word) : (s.setPc a).tick = s.tick := rfl

@[simp] theorem State.setStack_v (a : List Word) : (s.setStack a).v = s.v := rfl
@[simp] theorem State.setStack_i (a : List Word) : (s.setStack a).i = s.i := rfl
@[simp] theorem State.setStack_pc (a : List Word) : (s.setStack a).pc = s.pc := rfl
@[simp] theorem State.setStack_stack (a : List Word) : (s.setStack a).stack = a := rfl
@[simp] theorem State.setStack_dt (a : List Word) : (s.setStack a).dt = s.dt := rfl
@[simp] theorem State.setStack_st (a : List Word) : (s.setStack a).st = s.st := rfl
@[simp] theorem State.setStack_mem (a : List Word) : (s.setStack a).mem = s.mem := rfl
@[simp] theorem State.setStack_fb (a : List Word) : (s.setStack a).fb = s.fb := rfl
@[simp] theorem State.setStack_result (a : List Word) : (s.setStack a).result = s.result := rfl
@[simp] theorem State.setStack_params (a : List Word) : (s.setStack a).params = s.params := rfl
@[simp] theorem State.setStack_inputs (a : List Word) : (s.setStack a).inputs = s.inputs := rfl
@[simp] theorem State.setStack_tick (a : List Word) : (s.setStack a).tick = s.tick := rfl

@[simp] theorem State.setDt_v (a : Byte) : (s.setDt a).v = s.v := rfl
@[simp] theorem State.setDt_i (a : Byte) : (s.setDt a).i = s.i := rfl
@[simp] theorem State.setDt_pc (a : Byte) : (s.setDt a).pc = s.pc := rfl
@[simp] theorem State.setDt_stack (a : Byte) : (s.setDt a).stack = s.stack := rfl
@[simp] theorem State.setDt_dt (a : Byte) : (s.setDt a).dt = a := rfl
@[simp] theorem State.setDt_st (a : Byte) : (s.setDt a).st = s.st := rfl
@[simp] theorem State.setDt_mem (a : Byte) : (s.setDt a).mem = s.mem := rfl
@[simp] theorem State.setDt_fb (a : Byte) : (s.setDt a).fb = s.fb := rfl
@[simp] theorem State.setDt_result (a : Byte) : (s.setDt a).result = s.result := rfl
@[simp] theorem State.setDt_params (a : Byte) : (s.setDt a).params = s.params := rfl
@[simp] theorem State.setDt_inputs (a : Byte) : (s.setDt a).inputs = s.inputs := rfl
@[simp] theorem State.setDt_tick (a : Byte) : (s.setDt a).tick = s.tick := rfl

@[simp] theorem State.setSt_v (a : Byte) : (s.setSt a).v = s.v := rfl
@[simp] theorem State.setSt_i (a : Byte) : (s.setSt a).i = s.i := rfl
@[simp] theorem State.setSt_pc (a : Byte) : (s.setSt a).pc = s.pc := rfl
@[simp] theorem State.setSt_stack (a : Byte) : (s.setSt a).stack = s.stack := rfl
@[simp] theorem State.setSt_dt (a : Byte) : (s.setSt a).dt = s.dt := rfl
@[simp] theorem State.setSt_st (a : Byte) : (s.setSt a).st = a := rfl
@[simp] theorem State.setSt_mem (a : Byte) : (s.setSt a).mem = s.mem := rfl
@[simp] theorem State.setSt_fb (a : Byte) : (s.setSt a).fb = s.fb := rfl
@[simp] theorem State.setSt_result (a : Byte) : (s.setSt a).result = s.result := rfl
@[simp] theorem State.setSt_params (a : Byte) : (s.setSt a).params = s.params := rfl
@[simp] theorem State.setSt_inputs (a : Byte) : (s.setSt a).inputs = s.inputs := rfl
@[simp] theorem State.setSt_tick (a : Byte) : (s.setSt a).tick = s.tick := rfl

@[simp] theorem State.setMem_v (a : Memory) : (s.setMem a).v = s.v := rfl
@[simp] theorem State.setMem_i (a : Memory) : (s.setMem a).i = s.i := rfl
@[simp] theorem State.setMem_pc (a : Memory) : (s.setMem a).pc = s.pc := rfl
@[simp] theorem State.setMem_stack (a : Memory) : (s.setMem a).stack = s.stack := rfl
@[simp] theorem State.setMem_dt (a : Memory) : (s.setMem a).dt = s.dt := rfl
@[simp] theorem State.setMem_st (a : Memory) : (s.setMem a).st = s.st := rfl
@[simp] theorem State.setMem_mem (a : Memory) : (s.setMem a).mem = a := rfl
@[simp] theorem State.setMem_fb (a : Memory) : (s.setMem a).fb = s.fb := rfl
@[simp] theorem State.setMem_result (a : Memory) : (s.setMem a).result = s.result := rfl
@[simp] theorem State.setMem_params (a : Memory) : (s.setMem a).params = s.params := rfl
@[simp] theorem State.setMem_inputs (a : Memory) : (s.setMem a).inputs = s.inputs := rfl
@[simp] theorem State.setMem_tick (a : Memory) : (s.setMem a).tick = s.tick := rfl

@[simp] theorem State.setFb_v (a : Display) : (s.setFb a).v = s.v := rfl
@[simp] theorem State.setFb_i (a : Display) : (s.setFb a).i = s.i := rfl
@[simp] theorem State.setFb_pc (a : Display) : (s.setFb a).pc = s.pc := rfl
@[simp] theorem State.setFb_stack (a : Display) : (s.setFb a).stack = s.stack := rfl
@[simp] theorem State.setFb_dt (a : Display) : (s.setFb a).dt = s.dt := rfl
@[simp] theorem State.setFb_st (a : Display) : (s.setFb a).st = s.st := rfl
@[simp] theorem State.setFb_mem (a : Display) : (s.setFb a).mem = s.mem := rfl
@[simp] theorem State.setFb_fb (a : Display) : (s.setFb a).fb = a := rfl
@[simp] theorem State.setFb_result (a : Display) : (s.setFb a).result = s.result := rfl
@[simp] theorem State.setFb_params (a : Display) : (s.setFb a).params = s.params := rfl
@[simp] theorem State.setFb_inputs (a : Display) : (s.setFb a).inputs = s.inputs := rfl
@[simp] theorem State.setFb_tick (a : Display) : (s.setFb a).tick = s.tick := rfl

@[simp] theorem State.setResult_v (a : StepResult) : (s.setResult a).v = s.v := rfl
@[simp] theorem State.setResult_i (a : StepResult) : (s.setResult a).i = s.i := rfl
@[simp] theorem State.setResult_pc (a : StepResult) : (s.setResult a).pc = s.pc := rfl
@[simp] theorem State.setResult_stack (a : StepResult) : (s.setResult a).stack = s.stack := rfl
@[simp] theorem State.setResult_dt (a : StepResult) : (s.setResult a).dt = s.dt := rfl
@[simp] theorem State.setResult_st (a : StepResult) : (s.setResult a).st = s.st := rfl
@[simp] theorem State.setResult_mem (a : StepResult) : (s.setResult a).mem = s.mem := rfl
@[simp] theorem State.setResult_fb (a : StepResult) : (s.setResult a).fb = s.fb := rfl
@[simp] theorem State.setResult_result (a : StepResult) : (s.setResult a).result = a := rfl
@[simp] theorem State.setResult_params (a : StepResult) : (s.setResult a).params = s.params := rfl
@[simp] theorem State.setResult_inputs (a : StepResult) : (s.setResult a).inputs = s.inputs := rfl
@[simp] theorem State.setResult_tick (a : StepResult) : (s.setResult a).tick = s.tick := rfl

@[simp] theorem State.nextInput_v : s.nextInput.v = s.v := rfl
@[simp] theorem State.nextInput_i : s.nextInput.i = s.i := rfl
@[simp] theorem State.nextInput_pc : s.nextInput.pc = s.pc := rfl
@[simp] theorem State.nextInput_stack : s.nextInput.stack = s.stack := rfl
@[simp] theorem State.nextInput_dt : s.nextInput.dt = s.dt := rfl
@[simp] theorem State.nextInput_st : s.nextInput.st = s.st := rfl
@[simp] theorem State.nextInput_mem : s.nextInput.mem = s.mem := rfl
@[simp] theorem State.nextInput_fb : s.nextInput.fb = s.fb := rfl
@[simp] theorem State.nextInput_result : s.nextInput.result = s.result := rfl
@[simp] theorem State.nextInput_params : s.nextInput.params = s.params := rfl
@[simp] theorem State.nextInput_inputs : s.nextInput.inputs = s.inputs.tail := rfl
@[simp] theorem State.nextInput_tick : s.nextInput.tick = s.tick + 1 := rfl

@[simp] theorem State.advance_v : s.advance.v = s.v := rfl
@[simp] theorem State.advance_i : s.advance.i = s.i := rfl
@[simp] theorem State.advance_pc : s.advance.pc = s.pc + 2#16 := rfl
@[simp] theorem State.advance_stack : s.advance.stack = s.stack := rfl
@[simp] theorem State.advance_dt : s.advance.dt = countDown s.dt := rfl
@[simp] theorem State.advance_st : s.advance.st = countDown s.st := rfl
@[simp] theorem State.advance_mem : s.advance.mem = s.mem := rfl
@[simp] theorem State.advance_fb : s.advance.fb = s.fb := rfl
@[simp] theorem State.advance_result : s.advance.result = .noChange := rfl
@[simp] theorem State.advance_params : s.advance.params = s.params := rfl
@[simp] theorem State.advance_inputs : s.advance.inputs = s.inputs := rfl
@[simp] theorem State.advance_tick : s.advance.tick = s.tick := rfl

@[simp] theorem State.setReg_i (x : Nibble) (b : Byte) : (s.setReg x b).i = s.i := rfl
@[simp] theorem State.setReg_pc (x : Nibble) (b : Byte) : (s.setReg x b).pc = s.pc := rfl
@[simp] theorem State.setReg_stack (x : Nibble) (b : Byte) : (s.setReg x b).stack = s.stack := rfl
@[simp] theorem State.setReg_dt (x : Nibble) (b : Byte) : (s.setReg x b).dt = s.dt := rfl
@[simp] theorem State.setReg_st (x : Nibble) (b : Byte) : (s.setReg x b).st = s.st := rfl
@[simp] theorem State.setReg_mem (x : Nibble) (b : Byte) : (s.setReg x b).mem = s.mem := rfl
@[simp] theorem State.setReg_fb (x : Nibble) (b : Byte) : (s.setReg x b).fb = s.fb := rfl
@[simp] theorem State.setReg_result (x : Nibble) (b : Byte) : (s.setReg x b).result = s.result := rfl
@[simp] theorem State.setReg_params (x : Nibble) (b : Byte) : (s.setReg x b).params = s.params := rfl
@[simp] theorem State.setReg_inputs (x : Nibble) (b : Byte) : (s.setReg x b).inputs = s.inputs := rfl
@[simp] theorem State.setReg_tick (x : Nibble) (b : Byte) : (s.setReg x b).tick = s.tick := rfl

@[simp] theorem State.setRegFlag_i (x : Nibble) (b c : Byte) : (s.setRegFlag x b c).i = s.i := rfl
@[simp] theorem State.setRegFlag_pc (x : Nibble) (b c : Byte) : (s.setRegFlag x b c).pc = s.pc := rfl
@[simp] theorem State.setRegFlag_stack (x : Nibble) (b c : Byte) : (s.setRegFlag x b c).stack = s.stack := rfl
@[simp] theorem State.setRegFlag_dt (x : Nibble) (b c : Byte) : (s.setRegFlag x b c).dt = s.dt := rfl
@[simp] theorem State.setRegFlag_st (x : Nibble) (b c : Byte) : (s.setRegFlag x b c).st = s.st := rfl
@[simp] theorem State.setRegFlag_mem (x : Nibble) (b c : Byte) : (s.setRegFlag x b c).mem = s.mem := rfl
@[simp] theorem State.setRegFlag_fb (x : Nibble) (b c : Byte) : (s.setRegFlag x b c).fb = s.fb := rfl
@[simp] theorem State.setRegFlag_result (x : Nibble) (b c : Byte) : (s.setRegFlag x b c).result = s.result := rfl
@[simp] theorem State.setRegFlag_params (x : Nibble) (b c : Byte) : (s.setRegFlag x b c).params = s.params := rfl
@[simp] theorem State.setRegFlag_inputs (x : Nibble) (b c : Byte) : (s.setRegFlag x b c).inputs = s.inputs := rfl
@[simp] theorem State.setRegFlag_tick (x : Nibble) (b c : Byte) : (s.setRegFlag x b c).tick = s.tick := rfl

@[simp] theorem State.setRegsFrom_i (bs : List Byte) : (s.setRegsFrom bs).i = s.i := rfl
@[simp] theorem State.setRegsFrom_pc (bs : List Byte) : (s.setRegsFrom bs).pc = s.pc := rfl
@[simp] theorem State.setRegsFrom_stack (bs : List Byte) : (s.setRegsFrom bs).stack = s.stack := rfl
@[simp] theorem State.setRegsFrom_dt (bs : List Byte) : (s.setRegsFrom bs).dt = s.dt := rfl
@[simp] theorem State.setRegsFrom_st (bs : List Byte) : (s.setRegsFrom bs).st = s.st := rfl
@[simp] theorem State.setRegsFrom_mem (bs : List Byte) : (s.setRegsFrom bs).mem = s.mem := rfl
@[simp] theorem State.setRegsFrom_fb (bs : List Byte) : (s.setRegsFrom bs).fb = s.fb := rfl
@[simp] theorem State.setRegsFrom_result (bs : List Byte) : (s.setRegsFrom bs).result = s.result := rfl
@[simp] theorem State.setRegsFrom_params (bs : List Byte) : (s.setRegsFrom bs).params = s.params := rfl
@[simp] theorem State.setRegsFrom_inputs (bs : List Byte) : (s.setRegsFrom bs).inputs = s.inputs := rfl
@[simp] theorem State.setRegsFrom_tick (bs : List Byte) : (s.setRegsFrom bs).tick = s.tick := rfl

@[simp] theorem State.skipIf_v (c : Bool) : (s.skipIf c).v = s.v := rfl
@[simp] theorem State.skipIf_i (c : Bool) : (s.skipIf c).i = s.i := rfl
@[simp] theorem State.skipIf_pc (c : Bool) : (s.skipIf c).pc = (if c then s.pc + 2#16 else s.pc) := rfl
@[simp] theorem State.skipIf_stack (c : Bool) : (s.skipIf c).stack = s.stack := rfl
@[simp] theorem State.skipIf_dt (c : Bool) : (s.skipIf c).dt = s.dt := rfl
@[simp] theorem State.skipIf_st (c : Bool) : (s.skipIf c).st = s.st := rfl
@[simp] theorem State.skipIf_mem (c : Bool) : (s.skipIf c).mem = s.mem := rfl
@[simp] theorem State.skipIf_fb (c : Bool) : (s.skipIf c).fb = s.fb := rfl
@[simp] theorem State.skipIf_result (c : Bool) : (s.skipIf c).result = s.result := rfl
@[simp] theorem State.skipIf_params (c : Bool) : (s.skipIf c).params = s.params := rfl
@[simp] theorem State.skipIf_inputs (c : Bool) : (s.skipIf c).inputs = s.inputs := rfl
@[simp] theorem State.skipIf_tick (c : Bool) : (s.skipIf c).tick = s.tick := rfl

@[simp] theorem State.push_v (v : Word) : (s.push v).v = s.v := rfl
@[simp] theorem State.push_i (v : Word) : (s.push v).i = s.i := rfl
@[simp] theorem State.push_pc (v : Word) : (s.push v).pc = s.pc := rfl
@[simp] theorem State.push_stack (v : Word) : (s.push v).stack = v :: s.stack := rfl
@[simp] theorem State.push_dt (v : Word) : (s.push v).dt = s.dt := rfl
@[simp] theorem State.push_st (v : Word) : (s.push v).st = s.st := rfl
@[simp] theorem State.push_mem (v : Word) : (s.push v).mem = s.mem := rfl
@[simp] theorem State.push_fb (v : Word) : (s.push v).fb = s.fb := rfl
@[simp] theorem State.push_result (v : Word) : (s.push v).result = s.result := rfl
@[simp] theorem State.push_params (v : Word) : (s.push v).params = s.params := rfl
@[simp] theorem State.push_inputs (v : Word) : (s.push v).inputs = s.inputs := rfl
@[simp] theorem State.push_tick (v : Word) : (s.push v).tick = s.tick := rfl

end FieldUpdates

/-! ### The register file -/

/-- A register read sees only the register file. -/
theorem State.reg_congr {s t : State} (h : t.v = s.v) (r : Nibble) : t.reg r = s.reg r := by
  simp only [State.reg, h]

theorem State.reg_setReg_same (s : State) (x : Nibble) (b : Byte) : (s.setReg x b).reg x = b := by
  simp [State.reg, State.setReg]

theorem State.reg_setReg_other (s : State) {x r : Nibble} (b : Byte) (h : r ≠ x) :
    (s.setReg x b).reg r = s.reg r := by
  have hx : x.toNat ≠ r.toNat := fun e => h (BitVec.eq_of_toNat_eq e.symm)
  simp [State.reg, State.setReg, Vector.getElem_set_ne, hx]

/-- What a register write leaves in every register. -/
@[simp] theorem State.reg_setReg (s : State) (x r : Nibble) (b : Byte) :
    (s.setReg x b).reg r = if r = x then b else s.reg r := by
  split
  · subst r; exact s.reg_setReg_same x b
  · exact s.reg_setReg_other b ‹_›

/-- Result first, flag last: VF holds the flag whatever the destination. -/
@[simp] theorem State.reg_setRegFlag (s : State) (x r : Nibble) (b flag : Byte) :
    (s.setRegFlag x b flag).reg r = if r = vf then flag else if r = x then b else s.reg r := by
  simp [State.setRegFlag]

@[simp] theorem State.reg_setI (s : State) (a : Word) (r : Nibble) : (s.setI a).reg r = s.reg r := rfl
@[simp] theorem State.reg_setPc (s : State) (a : Word) (r : Nibble) : (s.setPc a).reg r = s.reg r := rfl
@[simp] theorem State.reg_setStack (s : State) (a : List Word) (r : Nibble) : (s.setStack a).reg r = s.reg r := rfl
@[simp] theorem State.reg_setDt (s : State) (a : Byte) (r : Nibble) : (s.setDt a).reg r = s.reg r := rfl
@[simp] theorem State.reg_setSt (s : State) (a : Byte) (r : Nibble) : (s.setSt a).reg r = s.reg r := rfl
@[simp] theorem State.reg_setMem (s : State) (a : Memory) (r : Nibble) : (s.setMem a).reg r = s.reg r := rfl
@[simp] theorem State.reg_setFb (s : State) (a : Display) (r : Nibble) : (s.setFb a).reg r = s.reg r := rfl
@[simp] theorem State.reg_setResult (s : State) (a : StepResult) (r : Nibble) : (s.setResult a).reg r = s.reg r := rfl
@[simp] theorem State.reg_push (s : State) (v : Word) (r : Nibble) : (s.push v).reg r = s.reg r := rfl
@[simp] theorem State.reg_skipIf (s : State) (c : Bool) (r : Nibble) : (s.skipIf c).reg r = s.reg r := rfl
@[simp] theorem State.reg_advance (s : State) (r : Nibble) : s.advance.reg r = s.reg r := rfl
@[simp] theorem State.reg_nextInput (s : State) (r : Nibble) : s.nextInput.reg r = s.reg r := rfl

/-- A block of registers loaded from bytes: the registers the block reaches take its bytes, the rest stay. -/
@[simp] theorem State.reg_setRegsFrom (s : State) (bs : List Byte) (r : Nibble) :
    (s.setRegsFrom bs).reg r = bs.getD r.toNat (s.reg r) := by
  simp [State.reg, State.setRegsFrom]

/-- `regsTo x` is V0..Vx in order. -/
@[simp] theorem State.regsTo_length (s : State) (x : Nibble) : (s.regsTo x).length = x.toNat + 1 := by
  have := x.isLt
  simp [State.regsTo]; omega

theorem State.regsTo_getD (s : State) (x r : Nibble) (h : r.toNat ≤ x.toNat) (d : Byte) :
    (s.regsTo x).getD r.toNat d = s.reg r := by
  have hr := r.isLt
  have hl : r.toNat < (s.regsTo x).length := by simp; omega
  rw [List.getD_eq_getElem _ _ hl]
  simp [State.regsTo, State.reg]

/-! ### The step inputs -/

@[simp] theorem State.keys_advance (s : State) : s.advance.keys = s.keys := rfl
@[simp] theorem State.rnd_advance (s : State) : s.advance.rnd = s.rnd := rfl

theorem State.keys_of_inputs (s : State) {a : Input} {rest : List Input} (h : s.inputs = a :: rest) :
    s.keys = a.keys := by
  simp only [State.keys, h]

theorem State.rnd_of_inputs (s : State) {a : Input} {rest : List Input} (h : s.inputs = a :: rest) :
    s.rnd = a.rnd := by
  simp only [State.rnd, h]

end Sys2Proof.Machine
end

