-- ==== Sys2Proof/Laws/Ops.lean ====
section
/-! SUPPORT. What each shared operation can do, said once: block checks, block reads and writes, fetch, and the
step as a whole. -/

namespace Sys2Proof.Machine

/-! ### Block checks -/

theorem firstOutside_none {a n : Nat} : firstOutside a n = none ↔ n = 0 ∨ a + n ≤ 0x1000 := by
  simp [firstOutside, Config.memSize]
  omega

/-- The reported address is the first of the block above 0xFFF. -/
theorem firstOutside_some {a n b : Nat} :
    firstOutside a n = some b ↔ n ≠ 0 ∧ 0x1000 < a + n ∧ b = max a 0x1000 := by
  unfold firstOutside Config.memSize
  split <;> simp <;> omega

theorem firstReserved_none {a n : Nat} : firstReserved a n = none ↔ n = 0 ∨ 0x200 ≤ a := by
  simp [firstReserved, Config.programStart]
  omega

theorem firstReserved_some {a n b : Nat} : firstReserved a n = some b ↔ n ≠ 0 ∧ a < 0x200 ∧ b = a := by
  unfold firstReserved Config.programStart
  split <;> simp <;> omega

/-! ### Block reads -/

theorem State.memRead_ok {s : State} {a n : Nat} (h : n = 0 ∨ a + n ≤ 0x1000) :
    s.memRead a n = .ok (s.mem.readBlock a n) := by
  rw [State.memRead, firstOutside_none.2 h]

theorem State.memRead_fault {s : State} {a n : Nat} (hn : n ≠ 0) (h : 0x1000 < a + n) :
    s.memRead a n = .error (.memOutOfRange (BitVec.ofNat 16 (max a 0x1000))) := by
  rw [State.memRead, firstOutside_some.2 ⟨hn, h, rfl⟩]

/-- Everything a block read can do. -/
theorem State.memRead_cases (s : State) (a n : Nat) :
    (s.memRead a n = .ok (s.mem.readBlock a n) ∧ (n = 0 ∨ a + n ≤ 0x1000)) ∨
    (s.memRead a n = .error (.memOutOfRange (BitVec.ofNat 16 (max a 0x1000))) ∧ n ≠ 0 ∧ 0x1000 < a + n) := by
  by_cases h : n = 0 ∨ a + n ≤ 0x1000
  · exact .inl ⟨State.memRead_ok h, h⟩
  · have h' : n ≠ 0 ∧ 0x1000 < a + n := by omega
    exact .inr ⟨State.memRead_fault h'.1 h'.2, h'⟩

/-! ### Block writes -/

theorem State.memWrite_ok {s : State} {a : Nat} {bs : List Byte} (h : a + bs.length ≤ 0x1000)
    (hr : s.params.reservedWrite = .write ∨ 0x200 ≤ a) :
    s.memWrite a bs = .ok (s.setMem (s.mem.writeBlock a bs)) := by
  rw [State.memWrite, firstOutside_none.2 (.inr h)]
  rcases hr with hr | hr
  · simp [hr]
  · simp [firstReserved_none.2 (.inr hr)]

theorem State.memWrite_outside {s : State} {a : Nat} {bs : List Byte} (hn : bs ≠ []) (h : 0x1000 < a + bs.length) :
    s.memWrite a bs = .error (.memOutOfRange (BitVec.ofNat 16 (max a 0x1000))) := by
  rw [State.memWrite, firstOutside_some.2 ⟨by simpa using hn, h, rfl⟩]

theorem State.memWrite_reserved {s : State} {a : Nat} {bs : List Byte} (hn : bs ≠ [])
    (h : a + bs.length ≤ 0x1000) (ha : a < 0x200) (hr : s.params.reservedWrite = .fault) :
    s.memWrite a bs = .error (.reservedWrite (BitVec.ofNat 16 a)) := by
  rw [State.memWrite, firstOutside_none.2 (.inr h), hr, firstReserved_some.2 ⟨by simpa using hn, ha, rfl⟩]

/-- Everything a write of a non-empty block can do. -/
theorem State.memWrite_cases (s : State) (a : Nat) {bs : List Byte} (hn : bs ≠ []) :
    (s.memWrite a bs = .ok (s.setMem (s.mem.writeBlock a bs)) ∧ a + bs.length ≤ 0x1000 ∧
      (s.params.reservedWrite = .write ∨ 0x200 ≤ a)) ∨
    (s.memWrite a bs = .error (.memOutOfRange (BitVec.ofNat 16 (max a 0x1000))) ∧ 0x1000 < a + bs.length) ∨
    (s.memWrite a bs = .error (.reservedWrite (BitVec.ofNat 16 a)) ∧ a + bs.length ≤ 0x1000 ∧ a < 0x200 ∧
      s.params.reservedWrite = .fault) := by
  by_cases h : a + bs.length ≤ 0x1000
  · by_cases ha : 0x200 ≤ a
    · exact .inl ⟨State.memWrite_ok h (.inr ha), h, .inr ha⟩
    · cases hr : s.params.reservedWrite with
      | fault => exact .inr (.inr ⟨State.memWrite_reserved hn h (by omega) hr, h, by omega, rfl⟩)
      | write => exact .inl ⟨State.memWrite_ok h (.inl hr), h, .inl rfl⟩
  · exact .inr (.inl ⟨State.memWrite_outside hn (by omega), by omega⟩)

/-! ### The timers and the stack -/

/-- A timer's count after a decrement: one less, and 0 stays 0. -/
theorem countDown_toNat (b : Byte) : (countDown b).toNat = b.toNat - 1 := by
  unfold countDown
  split
  · next h => subst h; rfl
  · next h =>
    have h1 : b.toNat ≠ 0 := fun e => h (BitVec.eq_of_toNat_eq (by simpa using e))
    have := b.isLt
    rw [BitVec.toNat_sub]
    simp; omega

theorem State.stackFull_iff {s : State} :
    s.stackFull = true ↔ s.params.stackDepth = some s.stack.length := by
  unfold State.stackFull
  cases s.params.stackDepth with
  | none => simp
  | some d => simpa using eq_comm

/-! ### Fetch and step -/

theorem State.fetch_ok {s : State} (h : s.pc.toNat ≤ 0xFFE) :
    s.fetch = .ok (wordOfBytes (s.mem.read s.pc.toNat) (s.mem.read (s.pc.toNat + 1))) := by
  rw [State.fetch, if_neg (by simp [Config.memSize]; omega), State.memRead_ok (.inr (by omega))]
  simp only [Memory.readBlock_getD _ _ (show 0 < 2 by decide), Memory.readBlock_getD _ _ (show 1 < 2 by decide),
    Nat.add_zero]

theorem State.fetch_outOfMemory {s : State} (h : 0x1000 ≤ s.pc.toNat) : s.fetch = .error (.outOfMemory s.pc) := by
  rw [State.fetch, if_pos (by simpa [Config.memSize] using h)]

theorem State.fetch_last {s : State} (h : s.pc.toNat = 0xFFF) : s.fetch = .error (.memOutOfRange 0x1000#16) := by
  rw [State.fetch, if_neg (by simp [Config.memSize, h]), State.memRead_fault (by decide) (by omega), h]
  rfl

/-- A fetch that answers a word read it at an address up to 0xFFE. -/
theorem State.fetch_inv {s : State} {w : Word} (h : s.fetch = .ok w) :
    s.pc.toNat ≤ 0xFFE ∧ w = wordOfBytes (s.mem.read s.pc.toNat) (s.mem.read (s.pc.toNat + 1)) := by
  by_cases h1 : s.pc.toNat ≤ 0xFFE
  · rw [State.fetch_ok h1] at h
    exact ⟨h1, by injection h with h; exact h.symm⟩
  · by_cases h2 : s.pc.toNat = 0xFFF
    · rw [State.fetch_last h2] at h; cases h
    · rw [State.fetch_outOfMemory (by omega)] at h; cases h

theorem commit_next {o : Outcome} {t : State} : commit o = .next t ↔ ∃ u, o = .next u ∧ t = u.nextInput := by
  cases o <;> simp [commit, eq_comm]

theorem commit_fault {o : Outcome} {f : Fault} : commit o = .fault f ↔ o = .fault f := by
  cases o <;> simp [commit]

theorem finish_next {e : Except Fault State} {t : State} : finish e = .next t ↔ e = .ok t := by
  cases e <;> simp [finish, raise]

theorem finish_fault {e : Except Fault State} {f : Fault} : finish e = .fault f ↔ e = .error f := by
  cases e <;> simp [finish, raise]

/-- A step that fetches and decodes executes that instruction on the advanced state and commits. -/
theorem step_of_decode {s : State} {w : Word} {i : Instr} (hf : s.fetch = .ok w)
    (hd : decode s.params w = .ok i) : step s = commit (exec i s.advance) := by
  simp only [step, hf, hd]

/-- Everything a completed step did. -/
theorem step_next {s t : State} (h : step s = .next t) :
    ∃ w i u, s.fetch = .ok w ∧ decode s.params w = .ok i ∧ exec i s.advance = .next u ∧ t = u.nextInput := by
  unfold step at h
  split at h
  · cases h
  · next w hw =>
    split at h
    · cases h
    · next i hi =>
      obtain ⟨u, hu, ht⟩ := commit_next.1 h
      exact ⟨w, i, u, hw, hi, hu, ht⟩

/-- Everything a faulting step did: the fetch, the decoder or the instruction raised. -/
theorem step_fault {s : State} {f : Fault} (h : step s = .fault f) :
    s.fetch = .error f ∨
    (∃ w e, s.fetch = .ok w ∧ decode s.params w = .error e ∧ f = .unknownOpcode w) ∨
    (∃ w i, s.fetch = .ok w ∧ decode s.params w = .ok i ∧ exec i s.advance = .fault f) := by
  unfold step at h
  split at h
  · next e he => simp only [raise, Host.Outcome.fault.injEq] at h; exact .inl (h ▸ he)
  · next w hw =>
    split at h
    · next e he =>
      simp only [raise, Host.Outcome.fault.injEq] at h
      exact .inr (.inl ⟨w, e, hw, he, h.symm⟩)
    · next i hi => exact .inr (.inr ⟨w, i, hw, hi, commit_fault.1 h⟩)

end Sys2Proof.Machine
end

