-- ==== Sys2Proof/Laws/Exec.lean ====
section
/-! SUPPORT. What each instruction that can fault does when it completes, and the pieces of the state DRW and the key
wait leave: said once, for the proofs to cite. -/

namespace Sys2Proof.Machine

/-! ### The state DRW ends with -/

section Drawn
variable (s : State) (ox oy : Nat) (rows : List Byte)

@[simp] theorem State.drawn_i : (s.drawn ox oy rows).i = s.i := rfl
@[simp] theorem State.drawn_pc : (s.drawn ox oy rows).pc = s.pc := rfl
@[simp] theorem State.drawn_stack : (s.drawn ox oy rows).stack = s.stack := rfl
@[simp] theorem State.drawn_dt : (s.drawn ox oy rows).dt = s.dt := rfl
@[simp] theorem State.drawn_st : (s.drawn ox oy rows).st = s.st := rfl
@[simp] theorem State.drawn_mem : (s.drawn ox oy rows).mem = s.mem := rfl
@[simp] theorem State.drawn_params : (s.drawn ox oy rows).params = s.params := rfl
@[simp] theorem State.drawn_inputs : (s.drawn ox oy rows).inputs = s.inputs := rfl
@[simp] theorem State.drawn_tick : (s.drawn ox oy rows).tick = s.tick := rfl
@[simp] theorem State.drawn_result : (s.drawn ox oy rows).result = .displayUpdated := rfl
@[simp] theorem State.drawn_fb : (s.drawn ox oy rows).fb = (draw ox oy rows s.fb).1 := rfl

@[simp] theorem State.reg_drawn (r : Nibble) :
    (s.drawn ox oy rows).reg r = if r = vf then flagOf (draw ox oy rows s.fb).2 else s.reg r := by
  simp [State.drawn]

end Drawn

/-! ### The key wait -/

theorem State.keyWait_none {s : State} (h : s.keys = 0#16) (x : Nibble) : s.keyWait x = s.setPc s.fetchAddr := by
  rw [State.keyWait, if_pos h]

theorem State.keyWait_some {s : State} (h : s.keys ≠ 0#16) (x : Nibble) :
    s.keyWait x = s.setReg x ((chosenKey s.keys).setWidth 8) := by
  rw [State.keyWait, if_neg h]

/-! ### Completion of the instructions that can fault -/

theorem execDrw_next {x y n : Nibble} {s t : State} (h : exec (.drw x y n) s = .next t) :
    (n.toNat = 0 ∨ s.blockBase + n.toNat ≤ 0x1000) ∧
    t = s.drawn ((s.reg x).toNat % 64) ((s.reg y).toNat % 32) (s.mem.readBlock s.blockBase n.toNat) := by
  simp only [exec, execDrw] at h
  rcases s.memRead_cases s.blockBase n.toNat with ⟨e, c⟩ | ⟨e, c⟩
  · rw [e] at h; cases h; exact ⟨c, rfl⟩
  · rw [e] at h; cases h

theorem execLoadRegs_next {x : Nibble} {s t : State} (h : exec (.loadRegs x) s = .next t) :
    s.blockBase + (x.toNat + 1) ≤ 0x1000 ∧
    t = s.setRegsFrom (s.mem.readBlock s.blockBase (x.toNat + 1)) := by
  simp only [exec, execLoadRegs] at h
  rcases s.memRead_cases s.blockBase (x.toNat + 1) with ⟨e, c⟩ | ⟨e, c⟩
  · rw [e] at h; cases h; exact ⟨by omega, rfl⟩
  · rw [e] at h; cases h

/-- A completed store wrote its block inside memory, where the parameters allow it. -/
theorem store_next {s t : State} {a : Nat} {bs : List Byte} (hn : bs ≠ [])
    (h : finish (s.memWrite a bs) = .next t) :
    a + bs.length ≤ 0x1000 ∧ (s.params.reservedWrite = .write ∨ 0x200 ≤ a) ∧
    t = s.setMem (s.mem.writeBlock a bs) := by
  rcases s.memWrite_cases a hn with ⟨e, c, d⟩ | ⟨e, c⟩ | ⟨e, c⟩
  · rw [e] at h; cases h; exact ⟨c, d, rfl⟩
  · rw [e] at h; cases h
  · rw [e] at h; cases h

theorem bcdDigits_ne_nil (b : Byte) : bcdDigits b ≠ [] := List.cons_ne_nil _ _

theorem State.regsTo_ne_nil (s : State) (x : Nibble) : s.regsTo x ≠ [] := by
  intro h
  have := s.regsTo_length x
  simp [h] at this

theorem execLdBcd_next {x : Nibble} {s t : State} (h : exec (.ldBcd x) s = .next t) :
    s.blockBase + 3 ≤ 0x1000 ∧ (s.params.reservedWrite = .write ∨ 0x200 ≤ s.blockBase) ∧
    t = s.setMem (s.mem.writeBlock s.blockBase (bcdDigits (s.reg x))) :=
  store_next (bcdDigits_ne_nil _) h

theorem execStoreRegs_next {x : Nibble} {s t : State} (h : exec (.storeRegs x) s = .next t) :
    s.blockBase + (x.toNat + 1) ≤ 0x1000 ∧ (s.params.reservedWrite = .write ∨ 0x200 ≤ s.blockBase) ∧
    t = s.setMem (s.mem.writeBlock s.blockBase (s.regsTo x)) := by
  have := store_next (s.regsTo_ne_nil x) h
  rwa [s.regsTo_length x] at this

theorem execRet_next {s t : State} (h : exec .ret s = .next t) :
    ∃ top rest, s.stack = top :: rest ∧ t = (s.setStack rest).setPc top := by
  simp only [exec, execRet] at h
  split at h
  · cases h
  · next top rest e => cases h; exact ⟨top, rest, e, rfl⟩

theorem execCall_next {nnn : Addr} {s t : State} (h : exec (.call nnn) s = .next t) :
    s.stackFull = false ∧ t = (s.push s.pc).setPc (addrOf nnn) := by
  simp only [exec, execCall] at h
  split at h
  · cases h
  · next e => cases h; exact ⟨by simpa using e, rfl⟩

theorem execAddI_next {x : Nibble} {s t : State} (h : exec (.addI x) s = .next t) :
    s.i.toNat + (s.reg x).toNat ≤ 0xFFFF ∧ t = s.setI (BitVec.ofNat 16 (s.i.toNat + (s.reg x).toNat)) := by
  simp only [exec, execAddI] at h
  split at h
  · cases h
  · next e => cases h; exact ⟨by omega, rfl⟩

/-! ### The step, by the bytes at pc -/

/-- Everything a completed step did: the instruction at pc ran on the advanced state. -/
theorem step_next_at {s t : State} (h : step s = .next t) :
    ∃ i u, s.pc.toNat ≤ 0xFFE ∧
      decode s.params (wordOfBytes (s.mem.read s.pc.toNat) (s.mem.read (s.pc.toNat + 1))) = .ok i ∧
      exec i s.advance = .next u ∧ t = u.nextInput := by
  obtain ⟨w, i, u, hf, hd, he, rfl⟩ := step_next h
  obtain ⟨hp, rfl⟩ := State.fetch_inv hf
  exact ⟨i, u, hp, hd, he, rfl⟩

/-- Inside memory pc + 2 does not wrap. -/
theorem pc_add_two {s : State} (h : s.pc.toNat ≤ 0xFFE) : (s.pc + 2#16).toNat = s.pc.toNat + 2 := by
  rw [BitVec.toNat_add]
  simp only [BitVec.toNat_ofNat]
  omega

/-- A CALL, RET or key wait at pc finds its own address again (R93). -/
@[simp] theorem State.fetchAddr_advance (s : State) : s.advance.fetchAddr = s.pc := by
  simp [State.fetchAddr]

end Sys2Proof.Machine
end

