-- ==== Sys2Proof/Laws/Operands.lean ====
section
/-! SUPPORT. The operand forms and flags as integers: addresses, key sets, digits, sums and differences. -/

namespace Sys2Proof.Machine

@[simp] theorem addrOf_toNat (nnn : Addr) : (addrOf nnn).toNat = nnn.toNat := by
  have := nnn.isLt
  simp [addrOf]; omega

/-! ### Keys -/

theorem mem_keyList {keys : BitVec 16} {k : Nibble} : k ∈ keyList keys ↔ keys.getLsbD k.toNat = true := by
  have hk := k.isLt
  simp only [keyList, List.mem_map, List.mem_filter, List.mem_range]
  constructor
  · rintro ⟨n, ⟨hn, hb⟩, rfl⟩
    rwa [BitVec.toNat_ofNat, Nat.mod_eq_of_lt (by omega)]
  · exact fun h => ⟨k.toNat, ⟨by omega, h⟩, by simp⟩

theorem keyList_ne_nil {keys : BitVec 16} (h : keys ≠ 0#16) : keyList keys ≠ [] := by
  intro e
  apply h
  ext k hk
  by_contra hb
  have : BitVec.ofNat 4 k ∈ keyList keys := mem_keyList.2 (by
    rw [BitVec.toNat_ofNat, Nat.mod_eq_of_lt (by omega), BitVec.getLsbD_eq_getElem hk]
    simpa using hb)
  rw [e] at this
  simp at this

/-- The chosen key of a non-empty set is one of its members, whatever the free choice names. -/
theorem chosenKey_mem {keys : BitVec 16} (h : keys ≠ 0#16) : keys.getLsbD (chosenKey keys).toNat = true := by
  unfold chosenKey
  split
  · next e => exact absurd e (keyList_ne_nil h)
  · next k e => exact mem_keyList.1 (by simp [e])
  · next k rest _ e =>
    split
    · assumption
    · exact mem_keyList.1 (by simp [e])

/-- Where the free choice names a member, the machine takes it. -/
theorem chosenKey_eq {keys : BitVec 16} (h : keys.getLsbD (Config.keyChoice keys).toNat = true)
    (hne : ∀ k, keyList keys ≠ [k]) : chosenKey keys = Config.keyChoice keys := by
  unfold chosenKey
  split
  · next e => rw [← mem_keyList, e] at h; simp at h
  · next k e => exact absurd e (hne k)
  · rw [if_pos h]

/-! ### Flags and results as integers -/

@[simp] theorem flagOf_toNat (c : Bool) : (flagOf c).toNat = if c then 1 else 0 := by
  cases c <;> rfl

@[simp] theorem addResult_toNat (a b : Byte) : (addResult a b).toNat = (a.toNat + b.toNat) % 256 := by
  simp [addResult]

@[simp] theorem subResult_toNat (a b : Byte) : (subResult a b).toNat = (a.toNat + 256 - b.toNat) % 256 := by
  simp [subResult]

@[simp] theorem shrResult_toNat (a : Byte) : (shrResult a).toNat = a.toNat / 2 := by
  simp [shrResult, Nat.shiftRight_eq_div_pow]

@[simp] theorem shlResult_toNat (a : Byte) : (shlResult a).toNat = 2 * a.toNat % 256 := by
  simp [shlResult, Nat.shiftLeft_eq, Nat.mul_comm]

@[simp] theorem lowBitFlag_toNat (a : Byte) : (lowBitFlag a).toNat = a.toNat % 2 := by
  revert a; decide

@[simp] theorem highBitFlag_toNat (a : Byte) : (highBitFlag a).toNat = a.toNat / 128 := by
  revert a; decide

/-! ### Digits and glyphs -/

@[simp] theorem bcdDigits_length (b : Byte) : (bcdDigits b).length = 3 := rfl

@[simp] theorem glyphAddr_toNat (b : Byte) : (glyphAddr b).toNat = 5 * (b.toNat % 16) := by
  revert b; decide

end Sys2Proof.Machine
end

