-- ==== Sys2Proof/Laws/PerInstr.lean ====
section
/-! SUPPORT. Per instruction: the encoder's word matches the mask and match of the instruction's own row of
spec/opcode_table.json, written out here from the table. -/

namespace Sys2Proof.Laws

/-! ### The masks of the table on the words the encoder builds -/

theorem and_F000 (a : Nibble) (nnn : Addr) : wordANNN a nnn &&& 0xF000#16 = wordANNN a 0#12 := by
  apply BitVec.eq_of_getLsbD_eq
  intro k hk
  simp only [BitVec.getLsbD_and, getLsbD_wordANNN]
  interval_cases k <;> simp

theorem and_F00F (a x y n : Nibble) : wordAXYN a x y n &&& 0xF00F#16 = wordAXYN a 0#4 0#4 n := by
  apply BitVec.eq_of_getLsbD_eq
  intro k hk
  simp only [wordAXYN, wordAXKK, BitVec.getLsbD_and, getLsbD_wordANNN, getLsbD_addrXKK, getLsbD_byteYN]
  interval_cases k <;> simp

theorem and_F0FF (a x : Nibble) (kk : Byte) : wordAXKK a x kk &&& 0xF0FF#16 = wordAXKK a 0#4 kk := by
  apply BitVec.eq_of_getLsbD_eq
  intro k hk
  simp only [wordAXKK, BitVec.getLsbD_and, getLsbD_wordANNN, getLsbD_addrXKK]
  interval_cases k <;> simp

namespace EncodesOwnRow

/-- The mask of the instruction's row. -/
def rowMask : Instr → Word
  | .cls => 0xFFFF#16
  | .ret => 0xFFFF#16
  | .sys _ => 0xF000#16
  | .jp _ => 0xF000#16
  | .call _ => 0xF000#16
  | .seImm _ _ => 0xF000#16
  | .sneImm _ _ => 0xF000#16
  | .seReg _ _ => 0xF00F#16
  | .sneReg _ _ => 0xF00F#16
  | .ldImm _ _ => 0xF000#16
  | .addImm _ _ => 0xF000#16
  | .ldReg _ _ => 0xF00F#16
  | .orReg _ _ => 0xF00F#16
  | .andReg _ _ => 0xF00F#16
  | .xorReg _ _ => 0xF00F#16
  | .addReg _ _ => 0xF00F#16
  | .sub _ _ => 0xF00F#16
  | .subn _ _ => 0xF00F#16
  | .shr _ _ => 0xF00F#16
  | .shl _ _ => 0xF00F#16
  | .ldI _ => 0xF000#16
  | .jpV0 _ => 0xF000#16
  | .rnd _ _ => 0xF000#16
  | .drw _ _ _ => 0xF000#16
  | .skp _ => 0xF0FF#16
  | .sknp _ => 0xF0FF#16
  | .ldKey _ => 0xF0FF#16
  | .ldDelay _ => 0xF0FF#16
  | .setDelay _ => 0xF0FF#16
  | .setSound _ => 0xF0FF#16
  | .addI _ => 0xF0FF#16
  | .ldFont _ => 0xF0FF#16
  | .ldBcd _ => 0xF0FF#16
  | .storeRegs _ => 0xF0FF#16
  | .loadRegs _ => 0xF0FF#16

/-- The match of the instruction's row. -/
def rowMatch : Instr → Word
  | .cls => 0x00E0#16
  | .ret => 0x00EE#16
  | .sys _ => 0x0000#16
  | .jp _ => 0x1000#16
  | .call _ => 0x2000#16
  | .seImm _ _ => 0x3000#16
  | .sneImm _ _ => 0x4000#16
  | .seReg _ _ => 0x5000#16
  | .sneReg _ _ => 0x9000#16
  | .ldImm _ _ => 0x6000#16
  | .addImm _ _ => 0x7000#16
  | .ldReg _ _ => 0x8000#16
  | .orReg _ _ => 0x8001#16
  | .andReg _ _ => 0x8002#16
  | .xorReg _ _ => 0x8003#16
  | .addReg _ _ => 0x8004#16
  | .sub _ _ => 0x8005#16
  | .subn _ _ => 0x8007#16
  | .shr _ _ => 0x8006#16
  | .shl _ _ => 0x800E#16
  | .ldI _ => 0xA000#16
  | .jpV0 _ => 0xB000#16
  | .rnd _ _ => 0xC000#16
  | .drw _ _ _ => 0xD000#16
  | .skp _ => 0xE09E#16
  | .sknp _ => 0xE0A1#16
  | .ldKey _ => 0xF00A#16
  | .ldDelay _ => 0xF007#16
  | .setDelay _ => 0xF015#16
  | .setSound _ => 0xF018#16
  | .addI _ => 0xF01E#16
  | .ldFont _ => 0xF029#16
  | .ldBcd _ => 0xF033#16
  | .storeRegs _ => 0xF055#16
  | .loadRegs _ => 0xF065#16

/-- The encoded word has the fixed bits of the instruction's row. -/
def Statement (i : Instr) : Prop := encode i &&& rowMask i = rowMatch i

theorem cls : Statement .cls := rfl
theorem ret : Statement .ret := rfl
theorem sys (nnn : Addr) : Statement (.sys nnn) := (and_F000 _ _).trans rfl
theorem jp (nnn : Addr) : Statement (.jp nnn) := (and_F000 _ _).trans rfl
theorem call (nnn : Addr) : Statement (.call nnn) := (and_F000 _ _).trans rfl
theorem seImm (x : Nibble) (kk : Byte) : Statement (.seImm x kk) := (and_F000 _ _).trans rfl
theorem sneImm (x : Nibble) (kk : Byte) : Statement (.sneImm x kk) := (and_F000 _ _).trans rfl
theorem seReg (x : Nibble) (y : Nibble) : Statement (.seReg x y) := (and_F00F _ _ _ _).trans rfl
theorem sneReg (x : Nibble) (y : Nibble) : Statement (.sneReg x y) := (and_F00F _ _ _ _).trans rfl
theorem ldImm (x : Nibble) (kk : Byte) : Statement (.ldImm x kk) := (and_F000 _ _).trans rfl
theorem addImm (x : Nibble) (kk : Byte) : Statement (.addImm x kk) := (and_F000 _ _).trans rfl
theorem ldReg (x : Nibble) (y : Nibble) : Statement (.ldReg x y) := (and_F00F _ _ _ _).trans rfl
theorem orReg (x : Nibble) (y : Nibble) : Statement (.orReg x y) := (and_F00F _ _ _ _).trans rfl
theorem andReg (x : Nibble) (y : Nibble) : Statement (.andReg x y) := (and_F00F _ _ _ _).trans rfl
theorem xorReg (x : Nibble) (y : Nibble) : Statement (.xorReg x y) := (and_F00F _ _ _ _).trans rfl
theorem addReg (x : Nibble) (y : Nibble) : Statement (.addReg x y) := (and_F00F _ _ _ _).trans rfl
theorem sub (x : Nibble) (y : Nibble) : Statement (.sub x y) := (and_F00F _ _ _ _).trans rfl
theorem subn (x : Nibble) (y : Nibble) : Statement (.subn x y) := (and_F00F _ _ _ _).trans rfl
theorem shr (x : Nibble) (y : Nibble) : Statement (.shr x y) := (and_F00F _ _ _ _).trans rfl
theorem shl (x : Nibble) (y : Nibble) : Statement (.shl x y) := (and_F00F _ _ _ _).trans rfl
theorem ldI (nnn : Addr) : Statement (.ldI nnn) := (and_F000 _ _).trans rfl
theorem jpV0 (nnn : Addr) : Statement (.jpV0 nnn) := (and_F000 _ _).trans rfl
theorem rnd (x : Nibble) (kk : Byte) : Statement (.rnd x kk) := (and_F000 _ _).trans rfl
theorem drw (x : Nibble) (y : Nibble) (n : Nibble) : Statement (.drw x y n) := (and_F000 _ _).trans rfl
theorem skp (x : Nibble) : Statement (.skp x) := (and_F0FF _ _ _).trans rfl
theorem sknp (x : Nibble) : Statement (.sknp x) := (and_F0FF _ _ _).trans rfl
theorem ldKey (x : Nibble) : Statement (.ldKey x) := (and_F0FF _ _ _).trans rfl
theorem ldDelay (x : Nibble) : Statement (.ldDelay x) := (and_F0FF _ _ _).trans rfl
theorem setDelay (x : Nibble) : Statement (.setDelay x) := (and_F0FF _ _ _).trans rfl
theorem setSound (x : Nibble) : Statement (.setSound x) := (and_F0FF _ _ _).trans rfl
theorem addI (x : Nibble) : Statement (.addI x) := (and_F0FF _ _ _).trans rfl
theorem ldFont (x : Nibble) : Statement (.ldFont x) := (and_F0FF _ _ _).trans rfl
theorem ldBcd (x : Nibble) : Statement (.ldBcd x) := (and_F0FF _ _ _).trans rfl
theorem storeRegs (x : Nibble) : Statement (.storeRegs x) := (and_F0FF _ _ _).trans rfl
theorem loadRegs (x : Nibble) : Statement (.loadRegs x) := (and_F0FF _ _ _).trans rfl

end EncodesOwnRow

end Sys2Proof.Laws
end

