-- ==== Sys2Proof/Laws/Ports.lean ====
section
/-! SUPPORT. What a step transaction answers, by the outcome of its step, and the port values of each report. -/

namespace Sys2Proof.Machine

/-- A completed step commits its state and reports its result. -/
theorem transact_next {s t : State} (h : step s = .next t) : transact s = (t, .done t.result) := by
  simp only [transact, h]

/-- A faulting step changes no piece of the spec's state and reports the fault. -/
theorem transact_fault {s : State} {f : Fault} (h : step s = .fault f) :
    transact s = (s.nextInput, .fault f.cause f.info) := by
  simp only [transact, h]

@[simp] theorem Report.code_done (r : StepResult) : (Report.done r).code = some r.code := rfl
@[simp] theorem Report.code_fault (c : BitVec 4) (a : Word) : (Report.fault c a).code = some 2#2 := rfl
@[simp] theorem Report.cause_done (r : StepResult) : (Report.done r).cause = none := rfl
@[simp] theorem Report.cause_fault (c : BitVec 4) (a : Word) : (Report.fault c a).cause = some c := rfl
@[simp] theorem Report.info_done (r : StepResult) : (Report.done r).info = none := rfl
@[simp] theorem Report.info_fault (c : BitVec 4) (a : Word) : (Report.fault c a).info = some a := rfl

end Sys2Proof.Machine
end

