-- ==== Sys2Proof/Laws/Screen.lean ====
section
/-! SUPPORT. The display buffer cell by cell: what an XOR of one cell, a drawn cell and a drawn row leave in every
cell. -/

namespace Sys2Proof.Machine

/-- Row `r` of the buffer, as an optional row. -/
theorem display_getD (fb : Display) (r : Nat) : fb.getD r 0#64 = fb[r]?.getD 0#64 := by
  simp [Vector.getD]

/-- Setting row `r` of the buffer changes that row and no other. -/
theorem getD_setIfInBounds (fb : Display) {r : Nat} (hr : r < 32) (row : BitVec 64) (r' : Nat) :
    (fb.setIfInBounds r row).getD r' 0#64 = if r' = r then row else fb.getD r' 0#64 := by
  simp only [display_getD, Vector.getElem?_setIfInBounds, eq_comm (a := r)]
  split <;> simp_all

/-- An XOR of one cell of the grid changes that cell and no other. -/
theorem cell_xorCell (fb : Display) {r c : Nat} (hr : r < 32) (hc : c < 64) (b : Bool) (r' c' : Nat) :
    cell (xorCell fb r c b) r' c' = ((cell fb r' c') ^^ (b && decide (r' = r) && decide (c' = c))) := by
  unfold xorCell
  cases b with
  | false => simp
  | true =>
    simp only [cell, if_true, Bool.true_and, getD_setIfInBounds fb hr]
    by_cases h : r' = r
    · subst h
      simp only [if_true, BitVec.getLsbD_xor, BitVec.getLsbD_twoPow, decide_true, Bool.true_and]
      by_cases h : c' = c
      · simp [h, hc]
      · simp [h, Ne.symm h]
    · simp [h]

/-- Two buffers with the same cells are the same. -/
theorem display_ext {a b : Display} (h : ∀ r < 32, ∀ c < 64, cell a r c = cell b r c) : a = b := by
  ext r hr c hc
  have := h r hr c hc
  simpa [cell, Vector.getD, hr, BitVec.getLsbD_eq_getElem hc] using this

/-- After a clear every cell is 0. -/
@[simp] theorem cell_cleared (r c : Nat) : cell cleared r c = false := by
  simp only [cell, cleared, display_getD, Vector.getElem?_replicate]
  split <;> simp

end Sys2Proof.Machine
end

