-- ==== Sys2Proof/Tests/Slice0.lean ====
section
/-! SUPPORT. The model's own tests: ill-formed terms, one word per constructor written out bit by bit from
spec/30_encoding.md R78, single steps from the vectors of spec/95_test_vectors.md, and for every statement with
hypotheses a concrete state that meets them. -/

namespace Sys2Proof.Tests

open Sys2Proof.Machine

/-! ### Well-formedness (R76) -/

def sysParams : Params := { Config.defaults with zeroXE := .sys }

/-- SYS of a CLS, RET or governed word has no word of its own. -/
theorem test_wf_refuses :
    Instr.wf Config.defaults (.sys 0x0E0#12) = false ∧ Instr.wf Config.defaults (.sys 0x0EE#12) = false ∧
    Instr.wf Config.defaults (.sys 0x1E0#12) = false ∧ Instr.wf Config.defaults (.sys 0xFEE#12) = false ∧
    Instr.wf sysParams (.sys 0x0E0#12) = false ∧ Instr.wf sysParams (.sys 0x0EE#12) = false := by decide

/-- Every other SYS has, and under P_0XE_WILDCARD = SYS the governed ones too. -/
theorem test_wf_accepts :
    Instr.wf Config.defaults (.sys 0x000#12) = true ∧ Instr.wf Config.defaults (.sys 0xFFF#12) = true ∧
    Instr.wf Config.defaults (.sys 0xE00#12) = true ∧ Instr.wf sysParams (.sys 0x1E0#12) = true := by decide

/-! ### Decoding: words written out from R78's patterns -/

theorem test_decode_family_0 :
    decode Config.defaults 0b0000000011100000#16 = .ok (.cls) ∧
    decode Config.defaults 0b0000000011101110#16 = .ok (.ret) ∧
    decode Config.defaults 0b0000000100100011#16 = .ok (.sys 0x123#12) := by decide

theorem test_decode_family_1_2 :
    decode Config.defaults 0b0001001000110100#16 = .ok (.jp 0x234#12) ∧
    decode Config.defaults 0b0010001100000000#16 = .ok (.call 0x300#12) := by decide

theorem test_decode_family_3_4 :
    decode Config.defaults 0b0011001101000010#16 = .ok (.seImm 0x3#4 0x42#8) ∧
    decode Config.defaults 0b0100111100000001#16 = .ok (.sneImm 0xF#4 0x01#8) := by decide

theorem test_decode_family_5_9 :
    decode Config.defaults 0b0101000100100000#16 = .ok (.seReg 0x1#4 0x2#4) ∧
    decode Config.defaults 0b1001101010110000#16 = .ok (.sneReg 0xA#4 0xB#4) := by decide

theorem test_decode_family_6_7 :
    decode Config.defaults 0b0110000000001010#16 = .ok (.ldImm 0x0#4 0x0A#8) ∧
    decode Config.defaults 0b0111010100100000#16 = .ok (.addImm 0x5#4 0x20#8) := by decide

theorem test_decode_family_8 :
    decode Config.defaults 0b1000000100100000#16 = .ok (.ldReg 0x1#4 0x2#4) ∧
    decode Config.defaults 0b1000000100100001#16 = .ok (.orReg 0x1#4 0x2#4) ∧
    decode Config.defaults 0b1000000100100010#16 = .ok (.andReg 0x1#4 0x2#4) ∧
    decode Config.defaults 0b1000000100100011#16 = .ok (.xorReg 0x1#4 0x2#4) ∧
    decode Config.defaults 0b1000000000010100#16 = .ok (.addReg 0x0#4 0x1#4) ∧
    decode Config.defaults 0b1000000100100101#16 = .ok (.sub 0x1#4 0x2#4) ∧
    decode Config.defaults 0b1000111100010111#16 = .ok (.subn 0xF#4 0x1#4) ∧
    decode Config.defaults 0b1000000100000110#16 = .ok (.shr 0x1#4 0x0#4) ∧
    decode Config.defaults 0b1000000101111110#16 = .ok (.shl 0x1#4 0x7#4) := by decide

theorem test_decode_family_a_to_d :
    decode Config.defaults 0b1010001011110000#16 = .ok (.ldI 0x2F0#12) ∧
    decode Config.defaults 0b1011001100000000#16 = .ok (.jpV0 0x300#12) ∧
    decode Config.defaults 0b1100001100001111#16 = .ok (.rnd 0x3#4 0x0F#8) ∧
    decode Config.defaults 0b1101000100100011#16 = .ok (.drw 0x1#4 0x2#4 0x3#4) := by decide

theorem test_decode_family_e :
    decode Config.defaults 0b1110010010011110#16 = .ok (.skp 0x4#4) ∧
    decode Config.defaults 0b1110010010100001#16 = .ok (.sknp 0x4#4) := by decide

theorem test_decode_family_f_keys_timers :
    decode Config.defaults 0b1111001100001010#16 = .ok (.ldKey 0x3#4) ∧
    decode Config.defaults 0b1111001000000111#16 = .ok (.ldDelay 0x2#4) ∧
    decode Config.defaults 0b1111001000010101#16 = .ok (.setDelay 0x2#4) ∧
    decode Config.defaults 0b1111001000011000#16 = .ok (.setSound 0x2#4) := by decide

theorem test_decode_family_f_memory :
    decode Config.defaults 0b1111000100011110#16 = .ok (.addI 0x1#4) ∧
    decode Config.defaults 0b1111000100101001#16 = .ok (.ldFont 0x1#4) ∧
    decode Config.defaults 0b1111010100110011#16 = .ok (.ldBcd 0x5#4) ∧
    decode Config.defaults 0b1111001001010101#16 = .ok (.storeRegs 0x2#4) ∧
    decode Config.defaults 0b1111001001100101#16 = .ok (.loadRegs 0x2#4) := by decide

/-- R83: one illegal word of every family that has any (vectors D-4 to D-12). -/
theorem test_decode_illegal :
    decode Config.defaults 0x01E0#16 = .error (.unknownOpcode 0x01E0#16) ∧
    decode Config.defaults 0x5121#16 = .error (.unknownOpcode 0x5121#16) ∧
    decode Config.defaults 0x9ABF#16 = .error (.unknownOpcode 0x9ABF#16) ∧
    decode Config.defaults 0x8128#16 = .error (.unknownOpcode 0x8128#16) ∧
    decode Config.defaults 0xE1A2#16 = .error (.unknownOpcode 0xE1A2#16) ∧
    decode Config.defaults 0xF100#16 = .error (.unknownOpcode 0xF100#16) := by decide

/-- Two bytes, high byte first, and the rest left over; one byte is no instruction (R53, R70). -/
theorem test_decode_bytes :
    decodeBytes Config.defaults [0x60#8, 0x0A#8, 0x61#8] = .ok (.ldImm 0x0#4 0x0A#8, [0x61#8]) ∧
    decodeBytes Config.defaults [0x60#8] = .error .truncated := by decide

/-- The encoder on the words of the spec's own example (R82). -/
theorem test_encode_source_example :
    encodeBytes (.ldImm 0x0#4 0x0A#8) ++ encodeBytes (.ldImm 0x1#4 0x05#8) ++ encodeBytes (.addReg 0x0#4 0x1#4) =
      [0x60#8, 0x0A#8, 0x61#8, 0x05#8, 0x80#8, 0x14#8] := by decide

/-! ### Single steps

The start is the vectors' common premise: `State.reset`, with the word at pc. -/

/-- Reset with some registers set. -/
def start (regs : List (Nibble × Byte)) : State := regs.foldl (fun s r => s.setReg r.1 r.2) State.reset

/-- The state after one step of the word placed at pc. -/
def after (w : Nat) (s : State) : Option State :=
  match step (s.withFetchWord 16 w) with
  | .next t => some t
  | .fault _ => none
  | .refused _ => none

/-- Something of the state after one step of the word placed at pc. -/
def seen {α : Type} (w : Nat) (s : State) (f : State → α) : Option α := (after w s).map f

/-- The fault one step raises. -/
def faultAt (s : State) : Option Fault :=
  match step s with
  | .next _ => none
  | .fault f => some f
  | .refused _ => none

/-- The fault one step of the word placed at pc raises. -/
def faultOf (w : Nat) (s : State) : Option Fault := faultAt (s.withFetchWord 16 w)

theorem step_of_after {w : Nat} {s : State} (h : (after w s).isSome = true) :
    ∃ t, step (s.withFetchWord 16 w) = .next t := by
  unfold after at h
  split at h
  · exact ⟨_, ‹_›⟩
  · cases h
  · cases h

theorem step_of_fault {s : State} {f : Fault} (h : faultAt s = some f) : step s = .fault f := by
  unfold faultAt at h
  split at h
  · cases h
  · next e => rw [e, Option.some.inj h]
  · cases h

/-- `s` with the bytes at `a` on. -/
def withBytes (s : State) (a : Nat) (bytes : List Byte) : State := s.setMem (s.mem.writeBlock a bytes)

/-- `s` with one step's inputs settled. -/
def withInput (s : State) (keys : BitVec 16) (rnd : Byte) : State :=
  { s with inputs := [{ keys := keys, rnd := rnd }] }

/-- `s` with other parameters. -/
def withParams (s : State) (p : Params) : State := { s with params := p }

/-- `s` with one cell lit. -/
def withLit (s : State) (r c : Nat) : State := s.setFb (xorCell s.fb r c true)

def writeParams : Params := { Config.defaults with reservedWrite := .write }

/-! #### The step -/

/-- Vector S-1. -/
theorem test_timers_count_down :
    seen 0x0000 ((State.reset.setDt 5#8).setSt 1#8) (fun t => (t.dt, t.st, t.pc)) =
      some (4#8, 0#8, 0x202#16) := by decide

/-- Vector S-2. -/
theorem test_timers_stay_at_zero :
    seen 0x0000 State.reset (fun t => (t.dt, t.st)) = some (0#8, 0#8) := by decide

/-- Vector S-3. -/
theorem test_fetch_beyond_memory :
    faultAt (State.reset.setPc 0x1000#16) = some (.outOfMemory 0x1000#16) := by decide

/-- Vector S-4. -/
theorem test_fetch_at_last_byte :
    faultAt (withBytes (State.reset.setPc 0xFFF#16) 0xFFF [0x12#8]) = some (.memOutOfRange 0x1000#16) := by decide

/-- Vector S-6. -/
theorem test_odd_pc_fetches :
    seen 0x6123 (State.reset.setPc 0x201#16) (fun t => (t.reg 1#4, t.pc)) = some (0x23#8, 0x203#16) := by decide

/-- Vector D-13. -/
theorem test_fault_keeps_timers :
    (transact ((State.reset.setDt 5#8).withFetchWord 16 0xF1FF)).1.dt = 5#8 ∧
    faultOf 0xF1FF (State.reset.setDt 5#8) = some (.unknownOpcode 0xF1FF#16) := by decide

/-- Vector D-14. -/
theorem test_wildcard_cls :
    seen 0x01E0 (withParams (withLit State.reset 0 0) { Config.defaults with zeroXE := .clsRet })
      (fun t => (cell t.fb 0 0, t.result)) = some (false, .displayUpdated) := by decide

/-- Vector D-15. -/
theorem test_wildcard_sys :
    seen 0x01EE (withParams (State.reset.push 0x300#16) sysParams) (fun t => (t.pc, t.stack)) =
      some (0x202#16, [0x300#16]) := by decide

/-- Vector D-16. -/
theorem test_wildcard_skip :
    seen 0x5121 (withParams State.reset { Config.defaults with skipN := .accept }) (fun t => t.pc) =
      some 0x204#16 := by decide

/-- The port values of R44: NO_CHANGE = 0, DISPLAY_UPDATED = 1, FAULT = 2. -/
theorem test_result_codes :
    (transact (State.reset.withFetchWord 16 0x0000)).2.code = some 0#2 ∧
    (transact (State.reset.withFetchWord 16 0x00E0)).2.code = some 1#2 ∧
    (transact (State.reset.withFetchWord 16 0x00EE)).2.code = some 2#2 := by decide

/-! #### Control flow -/

/-- Vector D-2. -/
theorem test_sys :
    seen 0x0123 State.reset (fun t => (t.pc, t.reg vf)) = some (0x202#16, 0#8) := by decide

/-- Vector C-1. -/
theorem test_ret_empty :
    faultOf 0x00EE State.reset = some (.stackUnderflow 0x200#16) := by decide

/-- Vector C-2, second step. -/
theorem test_ret :
    seen 0x00EE ((State.reset.setPc 0x300#16).push 0x202#16) (fun t => (t.pc, t.stack)) =
      some (0x202#16, []) := by decide

/-- Vector C-3. -/
theorem test_jp :
    seen 0x1234 State.reset (fun t => t.pc) = some 0x234#16 := by decide

/-- Vector C-4. -/
theorem test_jp_self :
    seen 0x1200 State.reset (fun t => t.pc) = some 0x200#16 := by decide

/-- Vector C-6; the newest entry is first. -/
theorem test_call :
    seen 0x2400 (State.reset.push 0x300#16) (fun t => (t.pc, t.stack)) =
      some (0x400#16, [0x202#16, 0x300#16]) := by decide

/-- Vector C-5. -/
theorem test_call_full :
    faultOf 0x2400 (withParams (State.reset.push 0x300#16) { Config.defaults with stackDepth := some 1 }) =
      some (.stackOverflow 0x200#16) := by decide

/-- Vector C-8. -/
theorem test_seImm_taken :
    seen 0x3342 (start [(0x3#4, 0x42#8)]) (fun t => t.pc) = some 0x204#16 := by decide

/-- Vector C-9. -/
theorem test_seImm_not_taken :
    seen 0x3342 (start [(0x3#4, 0x41#8)]) (fun t => t.pc) = some 0x202#16 := by decide

/-- Vector C-10. -/
theorem test_sneImm_taken :
    seen 0x4342 (start [(0x3#4, 0x41#8)]) (fun t => t.pc) = some 0x204#16 := by decide

/-- Vector C-11. -/
theorem test_sneImm_not_taken :
    seen 0x4342 (start [(0x3#4, 0x42#8)]) (fun t => t.pc) = some 0x202#16 := by decide

/-- Vector C-12. -/
theorem test_seReg_taken :
    seen 0x5120 (start [(0x1#4, 0x07#8), (0x2#4, 0x07#8)]) (fun t => t.pc) = some 0x204#16 := by decide

/-- Vector C-13. -/
theorem test_seReg_not_taken :
    seen 0x5120 (start [(0x1#4, 0x07#8), (0x2#4, 0x08#8)]) (fun t => t.pc) = some 0x202#16 := by decide

/-- Vector C-15. -/
theorem test_sneReg_taken :
    seen 0x9120 (start [(0x1#4, 0x07#8), (0x2#4, 0x08#8)]) (fun t => t.pc) = some 0x204#16 := by decide

/-- Vector C-16. -/
theorem test_sneReg_not_taken :
    seen 0x9120 (start [(0x1#4, 0x07#8), (0x2#4, 0x07#8)]) (fun t => t.pc) = some 0x202#16 := by decide

/-- Vector C-17. -/
theorem test_jpV0 :
    seen 0xB300 (start [(0x0#4, 0x10#8)]) (fun t => t.pc) = some 0x310#16 := by decide

/-- Vector C-18. -/
theorem test_jpV0_not_wrapped :
    seen 0xBFFF (start [(0x0#4, 0xFF#8)]) (fun t => t.pc) = some 0x10FE#16 := by decide

/-! #### Registers and arithmetic -/

/-- Vector A-1. -/
theorem test_ldImm :
    seen 0x6A42 State.reset (fun t => (t.reg 0xA#4, t.reg vf)) = some (0x42#8, 0x00#8) := by decide

/-- Vector A-3. -/
theorem test_addImm_wraps :
    seen 0x7501 (start [(0x5#4, 0xFF#8)]) (fun t => (t.reg 0x5#4, t.reg vf)) = some (0x00#8, 0x01#8) := by decide

/-- Vector A-6. -/
theorem test_addImm_flag_last :
    seen 0x7F01 (start [(0xF#4, 0xFF#8)]) (fun t => t.reg vf) = some 0x01#8 := by decide

/-- Vector A-8. -/
theorem test_ldReg :
    seen 0x8120 (start [(0x1#4, 0x11#8), (0x2#4, 0x22#8), (0xF#4, 0x77#8)])
      (fun t => (t.reg 0x1#4, t.reg vf)) = some (0x22#8, 0x77#8) := by decide

/-- Vector A-9. -/
theorem test_orReg :
    seen 0x8121 (start [(0x1#4, 0x0C#8), (0x2#4, 0x0A#8), (0xF#4, 0x77#8)])
      (fun t => (t.reg 0x1#4, t.reg vf)) = some (0x0E#8, 0x77#8) := by decide

/-- Vector A-10. -/
theorem test_andReg :
    seen 0x8122 (start [(0x1#4, 0x0C#8), (0x2#4, 0x0A#8), (0xF#4, 0x77#8)])
      (fun t => (t.reg 0x1#4, t.reg vf)) = some (0x08#8, 0x77#8) := by decide

/-- Vector A-11. -/
theorem test_xorReg :
    seen 0x8123 (start [(0x1#4, 0x0C#8), (0x2#4, 0x0A#8), (0xF#4, 0x77#8)])
      (fun t => (t.reg 0x1#4, t.reg vf)) = some (0x06#8, 0x77#8) := by decide

/-- Vector A-12. -/
theorem test_xorReg_same :
    seen 0x8113 (start [(0x1#4, 0x5A#8)]) (fun t => t.reg 0x1#4) = some 0x00#8 := by decide

/-- Vector A-16. -/
theorem test_addReg_flag_last :
    seen 0x8F14 (start [(0xF#4, 0x90#8), (0x1#4, 0x90#8)]) (fun t => t.reg vf) = some 0x01#8 := by decide

/-- Vector A-17. -/
theorem test_addReg_vf_source :
    seen 0x81F4 (start [(0x1#4, 0x02#8), (0xF#4, 0x03#8)]) (fun t => (t.reg 0x1#4, t.reg vf)) =
      some (0x05#8, 0x00#8) := by decide

/-- Vector A-18. -/
theorem test_sub_borrow :
    seen 0x8125 (start [(0x1#4, 0x05#8), (0x2#4, 0x07#8)]) (fun t => (t.reg 0x1#4, t.reg vf)) =
      some (0xFE#8, 0x00#8) := by decide

/-- Vector A-20. -/
theorem test_sub_equal :
    seen 0x8125 (start [(0x1#4, 0x07#8), (0x2#4, 0x07#8)]) (fun t => (t.reg 0x1#4, t.reg vf)) =
      some (0x00#8, 0x01#8) := by decide

/-- Vector A-27. -/
theorem test_subn_borrow :
    seen 0x8127 (start [(0x1#4, 0x07#8), (0x2#4, 0x05#8)]) (fun t => (t.reg 0x1#4, t.reg vf)) =
      some (0xFE#8, 0x00#8) := by decide

/-- Vector A-28. -/
theorem test_subn_flag_last :
    seen 0x8F17 (start [(0xF#4, 0x30#8), (0x1#4, 0x10#8)]) (fun t => t.reg vf) = some 0x00#8 := by decide

/-- Vector A-24. -/
theorem test_shr_ignores_y :
    seen 0x8126 (start [(0x1#4, 0x04#8), (0x2#4, 0xFF#8)]) (fun t => (t.reg 0x1#4, t.reg vf)) =
      some (0x02#8, 0x00#8) := by decide

/-- Vector A-25. -/
theorem test_shr_flag_last :
    seen 0x8FF6 (start [(0xF#4, 0x03#8)]) (fun t => t.reg vf) = some 0x01#8 := by decide

/-- Vector A-29. -/
theorem test_shl :
    seen 0x810E (start [(0x1#4, 0x81#8)]) (fun t => (t.reg 0x1#4, t.reg vf)) = some (0x02#8, 0x01#8) := by decide

/-- Vector A-31. -/
theorem test_shl_flag_last :
    seen 0x8FFE (start [(0xF#4, 0x80#8)]) (fun t => t.reg vf) = some 0x01#8 := by decide

/-- Vector A-33. -/
theorem test_rnd :
    seen 0xC30F (withInput State.reset 0#16 0xAB#8) (fun t => t.reg 0x3#4) = some 0x0B#8 := by decide

/-- Vector A-34. -/
theorem test_rnd_zero_mask :
    seen 0xC300 (withInput (start [(0x3#4, 0x77#8)]) 0#16 0xAB#8) (fun t => t.reg 0x3#4) = some 0x00#8 := by decide

/-! #### Display -/

/-- Vector G-1. -/
theorem test_cls :
    seen 0x00E0 (withLit (withLit State.reset 0 0) 31 63)
      (fun t => (cell t.fb 0 0, cell t.fb 31 63, t.result)) = some (false, false, .displayUpdated) := by decide

/-- Reset with V1 = 60, I = 0x300 and the sprite row FF there (vector G-3). -/
def spriteStart : State := withBytes ((start [(0x1#4, 60#8)]).setI 0x300#16) 0x300 [0xFF#8]

/-- Vector G-3. -/
theorem test_drw_wraps :
    seen 0xD121 spriteStart (fun t => (t.fb.getD 0 0#64, t.reg vf)) = some (0xF00000000000000F#64, 0#8) := by decide

/-- Vector G-4. -/
theorem test_drw_collides :
    seen 0xD121 (withLit spriteStart 0 62) (fun t => (t.fb.getD 0 0#64, t.reg vf, t.result)) =
      some (0xB00000000000000F#64, 1#8, .displayUpdated) := by decide

/-- Vector G-7. -/
theorem test_drw_no_rows :
    seen 0xD120 ((start [(0xF#4, 1#8), (0x1#4, 5#8), (0x2#4, 5#8)]).setI 0xFFFF#16)
      (fun t => (t.reg vf, t.result)) = some (0#8, .displayUpdated) := by decide

/-- Vector G-8. -/
theorem test_drw_past_end :
    faultOf 0xD123 (State.reset.setI 0xFFE#16) = some (.memOutOfRange 0x1000#16) := by decide

/-! #### Keys and timers -/

/-- Vector K-1. -/
theorem test_skp_taken :
    seen 0xE19E (withInput (start [(0x1#4, 5#8)]) 0x0020#16 0#8) (fun t => t.pc) = some 0x204#16 := by decide

/-- Vector K-3. -/
theorem test_skp_no_such_key :
    seen 0xE19E (withInput (start [(0x1#4, 0x15#8)]) 0x0020#16 0#8) (fun t => t.pc) = some 0x202#16 := by decide

/-- Vector K-4. -/
theorem test_sknp_not_taken :
    seen 0xE1A1 (withInput (start [(0x1#4, 5#8)]) 0x0020#16 0#8) (fun t => t.pc) = some 0x202#16 := by decide

/-- Vector K-6. -/
theorem test_sknp_no_such_key :
    seen 0xE1A1 (withInput (start [(0x1#4, 0x10#8)]) 0xFFFF#16 0#8) (fun t => t.pc) = some 0x204#16 := by decide

/-- Vector K-7, first step. -/
theorem test_ldKey_waits :
    seen 0xF30A (withInput (State.reset.setDt 2#8) 0#16 0#8) (fun t => (t.pc, t.dt)) =
      some (0x200#16, 1#8) := by decide

/-- Vector K-7, third step. -/
theorem test_ldKey_takes :
    seen 0xF30A (withInput State.reset 0x0400#16 0#8) (fun t => (t.pc, t.reg 0x3#4)) =
      some (0x202#16, 0x0A#8) := by decide

/-- Vector K-9. -/
theorem test_ldDelay :
    seen 0xF107 (State.reset.setDt 5#8) (fun t => (t.reg 0x1#4, t.dt)) = some (4#8, 4#8) := by decide

/-- Vector K-11. -/
theorem test_setDelay :
    seen 0xF115 ((start [(0x1#4, 9#8)]).setDt 4#8) (fun t => t.dt) = some 9#8 := by decide

/-- Vector K-12. -/
theorem test_setSound :
    seen 0xF118 (State.reset.setSt 7#8) (fun t => t.st) = some 0#8 := by decide

/-! #### Memory pointer and blocks -/

/-- Vector P-1. -/
theorem test_ldI :
    seen 0xA123 (State.reset.setI 0x999#16) (fun t => t.i) = some 0x123#16 := by decide

/-- Vector P-2. -/
theorem test_addI :
    seen 0xF11E ((start [(0x1#4, 0x20#8), (0xF#4, 7#8)]).setI 0xFF0#16) (fun t => (t.i, t.reg vf)) =
      some (0x1010#16, 7#8) := by decide

/-- Vector P-3. -/
theorem test_addI_overflow :
    faultOf 0xF11E ((start [(0x1#4, 1#8)]).setI 0xFFFF#16) = some (.pointerOverflow 0xFFFF#16) := by decide

/-- Vector P-8. -/
theorem test_ldFont :
    seen 0xF129 (start [(0x1#4, 0xAB#8)]) (fun t => t.i) = some 0x037#16 := by decide

/-- Vector P-9. -/
theorem test_ldBcd :
    seen 0xF133 ((start [(0x1#4, 127#8)]).setI 0x300#16) (fun t => t.mem.readBlock 0x300 3) =
      some [1#8, 2#8, 7#8] := by decide

/-- Vectors P-13 and P-14. -/
theorem test_ldBcd_reserved :
    faultOf 0xF133 ((start [(0x1#4, 255#8)]).setI 0x1FF#16) = some (.reservedWrite 0x1FF#16) ∧
    seen 0xF133 (withParams ((start [(0x1#4, 255#8)]).setI 0x100#16) writeParams)
      (fun t => t.mem.readBlock 0x100 3) = some [2#8, 5#8, 5#8] := by decide

/-- Vector P-15. -/
theorem test_storeRegs :
    seen 0xF255 ((start [(0x0#4, 0x11#8), (0x1#4, 0x22#8), (0x2#4, 0x33#8)]).setI 0x400#16)
      (fun t => (t.mem.readBlock 0x400 4, t.i)) = some ([0x11#8, 0x22#8, 0x33#8, 0#8], 0x400#16) := by decide

/-- Vector P-16. -/
theorem test_storeRegs_past_end :
    faultOf 0xFF55 (State.reset.setI 0xFF1#16) = some (.memOutOfRange 0x1000#16) := by decide

/-- Vector P-19: the font glyph 0; V5 stays. -/
theorem test_loadRegs :
    seen 0xF465 (start [(0x5#4, 0x44#8)])
      (fun t => [t.reg 0#4, t.reg 1#4, t.reg 2#4, t.reg 3#4, t.reg 4#4, t.reg 5#4]) =
      some [0xF0#8, 0x90#8, 0x90#8, 0x90#8, 0xF0#8, 0x44#8] := by decide

/-- Vector P-20. -/
theorem test_loadRegs_past_end :
    faultOf 0xF165 (State.reset.setI 0xFFF#16) = some (.memOutOfRange 0x1000#16) := by decide

/-! ### Witnesses: a state and operands that meet the hypotheses of each statement

A statement's clauses are met one by one, at the boundaries of their ranges. -/

/-- Reset with a word at pc. -/
abbrev at16 (w : Nat) : State := State.reset.withFetchWord 16 w

theorem at16_stack (w : Nat) : (at16 w).stack = [] := rfl

theorem at16_params (w : Nat) : (at16 w).params = Config.defaults := rfl

theorem witness_DecodeOfEncodeIsTheInstruction :
    Instr.wf Config.defaults (.sys 0xFFF#12) = true ∧ Instr.wf sysParams (.sys 0x1E0#12) = true ∧
    Instr.wf Config.defaults (.drw 0xF#4 0xF#4 0xF#4) = true := by decide

theorem witness_EncodeOfDecodeIsTheWord :
    Config.defaults.zeroXE ≠ .clsRet ∧ Config.defaults.skipN = .unknown ∧
    decode Config.defaults 0xFFFF#16 ≠ .ok .cls ∧
    decode Config.defaults 0xD123#16 = .ok (.drw 1#4 2#4 3#4) := by decide

theorem witness_FamilyZeroFollowsItsWildcard :
    (0x00E0#16).extractLsb 15 12 = 0#4 ∧ (0x00EE#16).extractLsb 15 12 = 0#4 ∧
    ((0x01E0#16).extractLsb 15 12 = 0#4 ∧ (0x01E0#16).extractLsb 11 8 ≠ 0#4 ∧
    (0x01E0#16).extractLsb 7 0 = 0xE0#8) ∧
    ((0x0FEE#16).extractLsb 11 8 ≠ 0#4 ∧ (0x0FEE#16).extractLsb 7 0 = 0xEE#8) ∧
    ((0x0FFF#16).extractLsb 15 12 = 0#4 ∧ (0x0FFF#16).extractLsb 7 0 ≠ 0xE0#8 ∧
    (0x0FFF#16).extractLsb 7 0 ≠ 0xEE#8) := by decide

theorem witness_StepRunsTheDecodedInstruction :
    (at16 0x600A).pc.toNat ≤ 0xFFE ∧
    decode (at16 0x600A).params ((at16 0x600A).mem.read 0x200 ++ (at16 0x600A).mem.read 0x201) =
      .ok (.ldImm 0x0#4 0x0A#8) := by decide

theorem witness_FetchReadsTwoBytesOrFaults :
    0x1000 ≤ (State.reset.setPc 0x1000#16).pc.toNat ∧ (State.reset.setPc 0xFFF#16).pc.toNat = 0xFFF ∧
    (State.reset.setPc 0xFFE#16).pc.toNat ≤ 0xFFE := by decide

theorem witness_IllegalWordFaultsWithTheWord :
    (at16 0x5121).pc.toNat ≤ 0xFFE ∧
    decode (at16 0x5121).params ((at16 0x5121).mem.read 0x200 ++ (at16 0x5121).mem.read 0x201) =
      .error (.unknownOpcode 0x5121#16) := by decide

/-- The premises of EveryStepCountsTheTimersDown, EveryStepMovesThePcAsTabled, StepReportsItsResult, StepDrivesItsPorts,
EveryStepKeepsTheInvariant and ReservedRegionIsNeverWritten. -/
theorem witness_a_step_completes :
    (∃ t, step (at16 0xF207) = .next t) ∧ (at16 0xF207).mem.wf ∧ (at16 0xF207).Inv ∧
      (at16 0xF207).params.reservedWrite = .fault :=

  ⟨step_of_after (w := 0xF207) (s := State.reset) (by decide), by decide,
    ⟨by decide, by decide, by simp [at16_stack], by simp [State.depthOk, at16_params, Config.defaults]⟩, rfl⟩

/-- The premise of FaultLeavesTheStateUntouched and FaultRepeatsWhateverTheInputs, and of the fault clauses of
EveryStepCountsTheTimersDown, StepReportsItsResult and StepDrivesItsPorts. -/
theorem witness_a_step_faults :
    step (at16 0x00EE) = .fault (.stackUnderflow 0x200#16) := step_of_fault (by decide)

theorem witness_BlockPastTheEndFaults :
    (State.reset.setPc 0xFFF#16).pc.toNat = 0xFFF ∧
    0xFFF < (State.reset.setI 0x1000#16).i.toNat + (1#4 : Nibble).toNat - 1 ∧
    1 ≤ (1#4 : Nibble).toNat ∧
    0xFFF < (State.reset.setI 0xFFE#16).i.toNat + 2 ∧
    0xFFF < (State.reset.setI 0xFF1#16).i.toNat + (0xF#4 : Nibble).toNat := by decide

theorem witness_ReservedStoreFaultsOnlyWhenAsked :
    (State.reset.setI 0x1FF#16).params.reservedWrite = .fault ∧
    (State.reset.setI 0x1FF#16).i.toNat < 0x200 ∧
    (withParams State.reset writeParams).params.reservedWrite = .write := by decide

/-- Reset with one stack entry and room for no other. -/
def fullStack : State := withParams (State.reset.push 0x300#16) { Config.defaults with stackDepth := some 1 }

theorem witness_CallPushesTheReturnAddress :
    State.reset.params.stackDepth ≠ some State.reset.stack.length ∧
    (withParams State.reset { Config.defaults with stackDepth := some 1 }).params.stackDepth ≠
      some State.reset.stack.length ∧
    fullStack.params.stackDepth = some fullStack.stack.length := by decide

theorem witness_ReturnPopsTheStack :
    fullStack.stack = 0x300#16 :: [] ∧ State.reset.stack = [] := by decide

/-- CALL 0xFFE at 0x200 and RET at 0xFFE. -/
def callThenRet : State := withBytes (at16 0x2FFE) 0xFFE [0x00#8, 0xEE#8]

theorem witness_CallThenReturnComesBack :
    callThenRet.pc.toNat ≤ 0xFFE ∧ (0xFFE#12 : Addr).toNat ≤ 0xFFE ∧
    callThenRet.wordAt callThenRet.pc.toNat = 0x2#4 ++ 0xFFE#12 ∧
    callThenRet.wordAt (0xFFE#12 : Addr).toNat = 0x00EE#16 ∧
    callThenRet.params.stackDepth ≠ some callThenRet.stack.length := by decide

theorem witness_RandomIsTheOfferedByteMasked :
    (withInput State.reset 0#16 0xAB#8).inputs = { keys := 0#16, rnd := 0xAB#8 } :: [] := by decide

theorem witness_OnlyFlagWritersClobberVF :
    ∃ t u, exec (.addImm vf 1#8) State.reset = .next t ∧ exec (.ldImm 0#4 1#8) State.reset = .next u ∧
    0#4 ≠ vf := ⟨_, _, rfl, rfl, by decide⟩

theorem witness_DrawXorsTheSpriteOntoTheGrid :
    (0#4 : Nibble) = 0#4 ∧ (State.reset.setI 0xFF1#16).i.toNat + (0xF#4 : Nibble).toNat ≤ 0x1000 ∧
    (cell (withLit spriteStart 0 62).fb 0 62 = true ∧
    (withLit spriteStart 0 62).spriteOn 60 0 1 0 62 = true) ∧
    spriteStart.spriteOn 60 0 1 0 3 = true ∧ spriteStart.spriteOn 60 0 1 0 4 = false := by decide

theorem witness_DrawTwiceRestoresTheBuffer :
    (List.replicate 15 0xFF#8).length ≤ 15 ∧ ([] : List Byte).length ≤ 15 := by decide

theorem witness_KeyWaitTakesSomePressedKey :
    (withInput State.reset 0#16 0#8).keys = 0#16 ∧ (withInput State.reset 0x8001#16 0#8).keys ≠ 0#16 := by decide

theorem witness_DelayReadSeesTheDecrement :
    (at16 0xF207).pc.toNat ≤ 0xFFE ∧
    (at16 0xF207).wordAt (at16 0xF207).pc.toNat = 0xF#4 ++ 0x2#4 ++ 0x07#8 := by decide

theorem witness_PointerAddFaultsInsteadOfWrapping :
    ((start [(1#4, 1#8)]).setI 0xFFFE#16).i.toNat + (start [(1#4, 1#8)] |>.reg 1#4).toNat ≤ 0xFFFF ∧
    0xFFFF < ((start [(1#4, 1#8)]).setI 0xFFFF#16).i.toNat + (start [(1#4, 1#8)] |>.reg 1#4).toNat := by decide

/-- Stores of 3 and of 16 bytes that end at 0xFFF, and one of a single byte at 0x200; with WRITE, one at 0. -/
theorem witness_BcdStoresTheDigits :
    State.reset.mem.wf ∧ (State.reset.setI 0xFFD#16).mayStore 3 ∧
    (withParams State.reset writeParams).mayStore 3 :=
    ⟨by decide, ⟨by decide, .inr (by decide)⟩, ⟨by decide, .inl rfl⟩⟩

theorem witness_RegisterDumpStoresTheRegisters :
    (State.reset.setI 0xFF0#16).mem.wf ∧
    (State.reset.setI 0xFF0#16).mayStore ((0xF#4 : Nibble).toNat + 1) ∧
    (State.reset.setI 0x200#16).mayStore ((0x0#4 : Nibble).toNat + 1) :=
    ⟨by decide, ⟨by decide, .inr (by decide)⟩, ⟨by decide, .inr (by decide)⟩⟩

theorem witness_RegisterLoadReadsTheBytes :
    (State.reset.setI 0xFF0#16).i.toNat + (0xF#4 : Nibble).toNat ≤ 0xFFF ∧
    State.reset.i.toNat + (0#4 : Nibble).toNat ≤ 0xFFF := by decide

theorem witness_FetchSeesStoredBytes :
    ∃ t, exec (.storeRegs 1#4) (State.reset.setI 0x300#16) = .next t ∧
    (State.reset.setI 0x300#16).mem.wf ∧
      (0#4 : Nibble).toNat < (1#4 : Nibble).toNat := ⟨_, rfl, by decide, by decide⟩

theorem witness_EveryInstructionKeepsItsFrame :
    ∃ t, exec (.storeRegs 1#4) (State.reset.setI 0x300#16) = .next t ∧
    (State.reset.setI 0x300#16).mem.wf := ⟨_, rfl, by decide⟩

/-- The same key set, and the same random byte, from inputs that differ; any inputs for the others. -/
theorem witness_OnlyInputInstructionsReadTheInputs :
    State.keys { withInput State.reset 5#16 1#8 with inputs := [{ keys := 5#16, rnd := 2#8 }], tick := 7 } =
      (withInput State.reset 5#16 1#8).keys ∧
    State.rnd { withInput State.reset 5#16 1#8 with inputs := [{ keys := 6#16, rnd := 1#8 }], tick := 7 } =
      (withInput State.reset 5#16 1#8).rnd := by decide

theorem witness_ConstructionPlacesFontImageAndFill :
    (List.replicate 0xE00 0xFF#8).length ≤ 0xE00 ∧ 0xE00 < (List.replicate 0xE01 0xFF#8).length :=
    by simp only [List.length_replicate]; decide

theorem witness_EndedRunOnlyCountsTimers :
    (at16 0x1200).endsAt 0x200#12 := ⟨rfl, by decide, by decide⟩

end Sys2Proof.Tests
end

/-! ### The state family (spec/10_state.md): what an instruction may write, and what follows from it -/

namespace Sys2Proof.Machine

/-! ### What an instruction may write, as one relation -/

/-- Memory in `t` is that of `s` with the `storeWidth i` bytes from I on written, where the parameters allow it
(R51, R57). Unlike `Frame` it needs no canonical memory. -/
def StoresOnly (i : Instr) (s t : State) : Prop :=
  ∃ bs : List Byte, bs.length = storeWidth i ∧ (bs = [] ∨ s.mayStore bs.length) ∧
    t.mem = s.mem.writeBlock s.blockBase bs

/-- From `s` to `t` nothing changed but what R20, R23, R25 and R51 let `i` write. -/
structure WritesOnly (i : Instr) (s t : State) : Prop where
  reg : ∀ r, r ∉ writesRegs i → t.reg r = s.reg r
  part : ∀ p, p ∉ writesParts i → p.same s t
  mem : StoresOnly i s t
  params : t.params = s.params
  inputs : t.inputs = s.inputs
  tick : t.tick = s.tick

theorem StoresOnly.keeps_wf {i : Instr} {s t : State} (h : StoresOnly i s t) (hm : s.mem.wf) : t.mem.wf := by
  obtain ⟨bs, -, -, ht⟩ := h
  exact ht ▸ Memory.writeBlock_wf hm _ bs

theorem StoresOnly.read_outside {i : Instr} {s t : State} (h : StoresOnly i s t) (hm : s.mem.wf) {a : Nat}
    (ha : ¬ (s.blockBase ≤ a ∧ a < s.blockBase + storeWidth i)) : t.mem.read a = s.mem.read a := by
  obtain ⟨bs, hl, rfl | ⟨hb, -⟩, ht⟩ := h
  · rw [ht, Memory.writeBlock]
  · rw [ht, Memory.read_writeBlock hm (a := s.blockBase) hb, if_neg (hl ▸ ha)]

theorem Part.same_trans {p : Part} {s t u : State} (h : p.same s t) (h' : p.same t u) : p.same s u := by
  cases p <;> exact Eq.trans h' h

/-- The registers are none of the pieces beside V and M. -/
theorem Part.same_setV (p : Part) (s : State) (v : Vector Byte 16) : p.same s (s.setV v) := by
  cases p <;> rfl

/-! ### One rule per state operation -/

namespace WritesOnly

section Rules
variable {i : Instr} {s t : State}

theorem refl (s : State) (h0 : storeWidth i = 0) : WritesOnly i s s where
  reg _ _ := rfl
  part p _ := by cases p <;> rfl
  mem := ⟨[], h0.symm, .inl rfl, rfl⟩
  params := rfl
  inputs := rfl
  tick := rfl

theorem setReg (h : WritesOnly i s t) {x : Nibble} (hx : x ∈ writesRegs i) (b : Byte) :
    WritesOnly i s (t.setReg x b) :=
  { h with
    reg := fun r hr => by rw [State.reg_setReg_other t b (ne_of_mem_of_not_mem hx hr).symm, h.reg r hr]
    part := fun p hp => Part.same_trans (h.part p hp) (p.same_setV t _) }

theorem setRegsFrom (h : WritesOnly i s t) {bs : List Byte}
    (hx : ∀ r : Nibble, r.toNat < bs.length → r ∈ writesRegs i) : WritesOnly i s (t.setRegsFrom bs) :=
  { h with
    reg := fun r hr => by
      have hlen : bs.length ≤ r.toNat := by simpa using mt (hx r) hr
      rw [State.reg_setRegsFrom, List.getD_eq_default _ _ hlen, h.reg r hr]
    part := fun p hp => Part.same_trans (h.part p hp) (p.same_setV t _) }

/-- An update of one piece of state that the instruction may write. -/
theorem setPart (h : WritesOnly i s t) {p : Part} (hp : p ∈ writesParts i) {u : State}
    (hq : ∀ q, q ≠ p → q.same t u)
    (hrest : u.v = t.v ∧ u.mem = t.mem ∧ u.params = t.params ∧ u.inputs = t.inputs ∧ u.tick = t.tick) :
    WritesOnly i s u := by
  obtain ⟨hv, hm, hpa, hin, htk⟩ := hrest
  exact {
    reg := fun r hr => (State.reg_congr hv r).trans (h.reg r hr)
    part := fun q hqp => Part.same_trans (h.part q hqp) (hq q (ne_of_mem_of_not_mem hp hqp).symm)
    mem := by simpa only [StoresOnly, hm] using h.mem
    params := hpa.trans h.params
    inputs := hin.trans h.inputs
    tick := htk.trans h.tick }

theorem setI (h : WritesOnly i s t) (hp : Part.i ∈ writesParts i) (a : Word) : WritesOnly i s (t.setI a) :=
  h.setPart hp (fun q hq => by cases q <;> simp_all [Part.same]) ⟨rfl, rfl, rfl, rfl, rfl⟩

theorem setPc (h : WritesOnly i s t) (hp : Part.pc ∈ writesParts i) (a : Word) : WritesOnly i s (t.setPc a) :=
  h.setPart hp (fun q hq => by cases q <;> simp_all [Part.same]) ⟨rfl, rfl, rfl, rfl, rfl⟩

theorem setStack (h : WritesOnly i s t) (hp : Part.stack ∈ writesParts i) (a : List Word) :
    WritesOnly i s (t.setStack a) :=
  h.setPart hp (fun q hq => by cases q <;> simp_all [Part.same]) ⟨rfl, rfl, rfl, rfl, rfl⟩

theorem setDt (h : WritesOnly i s t) (hp : Part.dt ∈ writesParts i) (b : Byte) : WritesOnly i s (t.setDt b) :=
  h.setPart hp (fun q hq => by cases q <;> simp_all [Part.same]) ⟨rfl, rfl, rfl, rfl, rfl⟩

theorem setSt (h : WritesOnly i s t) (hp : Part.st ∈ writesParts i) (b : Byte) : WritesOnly i s (t.setSt b) :=
  h.setPart hp (fun q hq => by cases q <;> simp_all [Part.same]) ⟨rfl, rfl, rfl, rfl, rfl⟩

theorem setFb (h : WritesOnly i s t) (hp : Part.fb ∈ writesParts i) (fb : Display) : WritesOnly i s (t.setFb fb) :=
  h.setPart hp (fun q hq => by cases q <;> simp_all [Part.same]) ⟨rfl, rfl, rfl, rfl, rfl⟩

theorem setResult (h : WritesOnly i s t) (hp : Part.result ∈ writesParts i) (r : StepResult) :
    WritesOnly i s (t.setResult r) :=
  h.setPart hp (fun q hq => by cases q <;> simp_all [Part.same]) ⟨rfl, rfl, rfl, rfl, rfl⟩

theorem setRegFlag (h : WritesOnly i s t) {x : Nibble} (hx : x ∈ writesRegs i) (hf : vf ∈ writesRegs i)
    (b flag : Byte) : WritesOnly i s (t.setRegFlag x b flag) :=
  (h.setReg hx b).setReg hf flag

theorem skipIf (h : WritesOnly i s t) (hp : Part.pc ∈ writesParts i) (c : Bool) : WritesOnly i s (t.skipIf c) :=
  h.setPc hp _

/-- A store of the instruction's whole block. -/
theorem store {bs : List Byte} (hl : bs.length = storeWidth i) (hs : s.mayStore bs.length) :
    WritesOnly i s (s.setMem (s.mem.writeBlock s.blockBase bs)) where
  reg _ _ := rfl
  part p _ := by cases p <;> rfl
  mem := ⟨bs, hl, .inr hs, rfl⟩
  params := rfl
  inputs := rfl
  tick := rfl

end Rules

end WritesOnly

/-- FX65 may write exactly V0..Vx (R23, R196). -/
theorem mem_writesRegs_loadRegs {x r : Nibble} : r ∈ writesRegs (.loadRegs x) ↔ r.toNat ≤ x.toNat := by
  have hx := x.isLt
  simp only [writesRegs, List.mem_map, List.mem_range]
  constructor
  · rintro ⟨k, hk, rfl⟩
    rw [BitVec.toNat_ofNat, Nat.mod_eq_of_lt (by omega)]
    omega
  · exact fun h => ⟨r.toNat, by omega, by simp⟩

/-! ### Every instruction keeps to what it may write -/

/-- The one case split over the instructions: each completed meaning is a chain of state operations, and each link is
one its row of R20, R23, R25 or R51 allows. -/
theorem exec_writesOnly {i : Instr} {s t : State} (h : exec i s = .next t) : WritesOnly i s t := by
  have base (h0 : storeWidth i = 0) : WritesOnly i s s := .refl s h0
  cases i with
  | sys nnn => cases h; exact base rfl
  | cls => cases h; exact ((base rfl).setFb (by decide) _).setResult (by decide) _
  | drw x y n =>
    obtain ⟨-, rfl⟩ := execDrw_next h
    exact (((base rfl).setFb (.head _) _).setReg (.head _) _).setResult (.tail _ (.head _)) _
  | ret =>
    obtain ⟨top, rest, -, rfl⟩ := execRet_next h
    exact ((base rfl).setStack (by decide) _).setPc (by decide) _
  | call nnn =>
    obtain ⟨-, rfl⟩ := execCall_next h
    exact ((base rfl).setStack (.tail _ (.head _)) _).setPc (.head _) _
  | jp nnn | jpV0 nnn => cases h; exact (base rfl).setPc (.head _) _
  | seImm x kk | sneImm x kk | seReg x y | sneReg x y | skp x | sknp x =>
    cases h; exact (base rfl).skipIf (.head _) _
  | ldImm x kk | ldReg x y | orReg x y | andReg x y | xorReg x y | rnd x kk | ldDelay x =>
    cases h; exact (base rfl).setReg (.head _) _
  | addImm x kk | addReg x y | sub x y | subn x y | shr x y | shl x y =>
    cases h; exact (base rfl).setRegFlag (.head _) (.tail _ (.head _)) _ _
  | ldKey x =>
    cases h
    by_cases hk : s.keys = 0#16
    · rw [State.keyWait_none hk]; exact (base rfl).setPc (.head _) _
    · rw [State.keyWait_some hk]; exact (base rfl).setReg (.head _) _
  | setDelay x => cases h; exact (base rfl).setDt (.head _) _
  | setSound x => cases h; exact (base rfl).setSt (.head _) _
  | ldI nnn | ldFont x => cases h; exact (base rfl).setI (.head _) _
  | addI x =>
    obtain ⟨-, rfl⟩ := execAddI_next h
    exact (base rfl).setI (.head _) _
  | ldBcd x =>
    obtain ⟨hb, hr, rfl⟩ := execLdBcd_next h
    exact .store rfl ⟨hb, hr⟩
  | storeRegs x =>
    obtain ⟨hb, hr, rfl⟩ := execStoreRegs_next h
    exact .store (s.regsTo_length x) ⟨by rwa [s.regsTo_length x], hr⟩
  | loadRegs x =>
    obtain ⟨-, rfl⟩ := execLoadRegs_next h
    refine (base rfl).setRegsFrom fun r hr => mem_writesRegs_loadRegs.2 ?_
    rw [Memory.readBlock_length] at hr
    omega

/-- Settles O48: the registers, pieces and inputs from `exec_writesOnly`, the bytes from the block it stores. -/
theorem everyInstructionKeepsItsFrame : Obligations.EveryInstructionKeepsItsFrame := by
  unfold Obligations.EveryInstructionKeepsItsFrame
  intro i s t hm h
  have hw := exec_writesOnly h
  exact ⟨hw.reg, hw.part, fun _ ha => hw.mem.read_outside hm ha, hw.params, hw.inputs, hw.tick⟩

/-! ### VF -/

theorem flagOf_eq_zero_or_one (c : Bool) : flagOf c = 0#8 ∨ flagOf c = 1#8 := by
  cases c
  · exact .inl rfl
  · exact .inr rfl

/-- The flag write comes last, so VF holds the flag for every destination (R22). -/
theorem reg_vf_setRegFlag_flagOf (s : State) (x : Nibble) (b : Byte) (c : Bool) :
    (s.setRegFlag x b (flagOf c)).reg vf = 0#8 ∨ (s.setRegFlag x b (flagOf c)).reg vf = 1#8 := by
  rw [State.reg_setRegFlag, if_pos rfl]
  exact flagOf_eq_zero_or_one c

/-- Settles O33: a flag writer ends with a flag in VF; any other instruction keeps VF by its frame. -/
theorem onlyFlagWritersClobberVF : Obligations.OnlyFlagWritersClobberVF := by
  unfold Obligations.OnlyFlagWritersClobberVF
  intro i s t h
  have keep : vf ∉ writesRegs i → t.reg vf = s.reg vf := (exec_writesOnly h).reg vf
  cases i with
  | addImm x kk | addReg x y | sub x y | subn x y | shr x y | shl x y =>
    cases h; exact reg_vf_setRegFlag_flagOf _ _ _ _
  | drw x y n =>
    obtain ⟨-, rfl⟩ := execDrw_next h
    simpa only [State.reg_drawn, if_true] using flagOf_eq_zero_or_one _
  | ldImm x kk | ldReg x y | orReg x y | andReg x y | xorReg x y | rnd x kk | ldKey x | ldDelay x =>
    exact fun hx => keep (by simpa [writesRegs] using hx.symm)
  | loadRegs x =>
    intro hx
    refine keep fun hmem => hx (BitVec.eq_of_toNat_eq ?_)
    have hle : 15 ≤ x.toNat := mem_writesRegs_loadRegs.1 hmem
    have hlt := x.isLt
    simp only [BitVec.toNat_ofNat]
    omega
  | _ => exact keep (by simp [writesRegs])

/-! ### The result and the ports -/

/-- Only CLS and DRW touch the result port, and both set it to DISPLAY_UPDATED (R47). -/
theorem exec_result {i : Instr} {s t : State} (h : exec i s = .next t) :
    t.result = if displays i then .displayUpdated else s.result := by
  have keep : Part.result ∉ writesParts i → t.result = s.result := (exec_writesOnly h).part .result
  cases i with
  | cls => cases h; rfl
  | drw x y n => obtain ⟨-, rfl⟩ := execDrw_next h; rfl
  | _ => exact keep (by simp [writesParts])

theorem step_result {s t : State} (h : step s = .next t) :
    ∃ i, decode s.params (s.wordAt s.pc.toNat) = .ok i ∧
      t.result = if displays i then .displayUpdated else .noChange := by
  obtain ⟨i, u, -, hd, he, rfl⟩ := step_next_at h
  exact ⟨i, hd, exec_result he⟩

/-- Settles O12: `transact` reports the result of `step_result`, or the fault of the step. -/
theorem stepReportsItsResult : Obligations.StepReportsItsResult := by
  unfold Obligations.StepReportsItsResult
  intro s
  constructor
  · intro t h
    obtain ⟨i, hd, hr⟩ := step_result h
    exact ⟨i, hd, by rw [transact_next h, hr]⟩
  · intro f h
    rw [transact_fault h]

/-- Settles O58: the report of O12, read port by port. -/
theorem stepDrivesItsPorts : Obligations.StepDrivesItsPorts := by
  unfold Obligations.StepDrivesItsPorts
  intro s
  obtain ⟨hdone, hfault⟩ := stepReportsItsResult s
  constructor
  · intro t h
    obtain ⟨i, hd, hr⟩ := hdone t h
    rw [hr]
    refine ⟨i, hd, ?_, rfl, rfl⟩
    cases displays i <;> rfl
  · intro f h
    rw [hfault f h]
    exact ⟨rfl, rfl, rfl⟩

/-- Settles O57: bit r*64+c of the port splits back into row r and column c. -/
theorem outputPortsShowTheState : Obligations.OutputPortsShowTheState := by
  unfold Obligations.OutputPortsShowTheState
  intro s
  constructor
  · have hz : s.st = 0#8 ↔ s.st.toNat = 0 := BitVec.toNat_inj.symm
    simp [State.soundActive, hz]
  · intro r _ c hc
    rw [State.fbPort, show (r * 64 + c) / 64 = r by omega, show (r * 64 + c) % 64 = c by omega]

/-! ### The program counter -/

section ProgramCounter
variable {s : State}

/-- A skip taken passes two words, one not taken passes its own (R25, R100). -/
theorem skipIf_advance_pc (hp : s.pc.toNat ≤ 0xFFE) (c : Bool) :
    (s.advance.skipIf c).pc.toNat = s.pc.toNat + if c then 4 else 2 := by
  have h2 := pc_add_two hp
  cases c with
  | false => exact h2
  | true =>
    simp only [State.skipIf_pc, State.advance_pc, if_true, BitVec.toNat_add, BitVec.toNat_ofNat]
    omega

/-- A key set has no member above 15, so the test of R170 needs no bound of its own. -/
theorem keyIn_iff (b : Byte) (keys : BitVec 16) :
    keyIn b keys = true ↔ b.toNat < 16 ∧ keys.getLsbD b.toNat = true :=
  ⟨fun h => ⟨BitVec.lt_of_getLsbD h, h⟩, And.right⟩

/-- The key wait stays at its own word or passes it (R25, R173). -/
theorem keyWait_advance_pc (hp : s.pc.toNat ≤ 0xFFE) (x : Nibble) :
    (s.advance.keyWait x).pc.toNat = s.pc.toNat + if s.keys = 0#16 then 0 else 2 := by
  by_cases hk : s.keys = 0#16
  · rw [State.keyWait_none (by simpa using hk), if_pos hk, State.setPc_pc, State.fetchAddr_advance, Nat.add_zero]
  · rw [State.keyWait_some (by simpa using hk), if_neg hk, State.setReg_pc, State.advance_pc, pc_add_two hp]

/-- `JP V0` cannot wrap: 0xFFF + 0xFF fits 16 bits (R109). -/
theorem addrOf_add_byte_toNat (nnn : Addr) (b : Byte) :
    (addrOf nnn + b.setWidth 16).toNat = nnn.toNat + b.toNat := by
  have hn := nnn.isLt
  have hb := b.isLt
  simp only [BitVec.toNat_add, addrOf_toNat, BitVec.toNat_setWidth]
  omega

end ProgramCounter

/-- Settles O11: an instruction that may not write pc ends past its word; the others one by one. -/
theorem everyStepMovesThePcAsTabled : Obligations.EveryStepMovesThePcAsTabled := by
  unfold Obligations.EveryStepMovesThePcAsTabled
  intro s t h
  obtain ⟨i, u, hp, hd, he, rfl⟩ := step_next_at h
  refine ⟨i, hd, ?_⟩
  have keep (hpc : Part.pc ∉ writesParts i) : u.pc.toNat = s.pc.toNat + 2 := by
    rw [show u.pc = s.pc + 2#16 from (exec_writesOnly he).part .pc hpc, pc_add_two hp]
  cases i with
  | seImm x kk | seReg x y | sneImm x kk | sneReg x y =>
    cases he; exact (skipIf_advance_pc hp _).trans (by simp)
  | skp x | sknp x =>
    cases he
    refine (skipIf_advance_pc hp _).trans ?_
    by_cases hk : keyIn (s.reg x) s.keys = true <;> simp [hk, ← keyIn_iff]
  | jp nnn => cases he; exact addrOf_toNat nnn
  | call nnn => obtain ⟨-, rfl⟩ := execCall_next he; exact addrOf_toNat nnn
  | jpV0 nnn => cases he; exact addrOf_add_byte_toNat nnn _
  | ret => obtain ⟨top, rest, hs, rfl⟩ := execRet_next he; exact congrArg List.head? hs
  | ldKey x => cases he; exact keyWait_advance_pc hp x
  | _ => exact keep (by simp [writesParts])

/-! ### The invariant -/

theorem State.depthOk_iff {s : State} :
    s.depthOk ↔ ∀ d, s.params.stackDepth = some d → s.stack.length ≤ d := by
  unfold State.depthOk
  cases s.params.stackDepth with
  | none => simp
  | some depth => simp

/-- Everything a completed instruction can do to the stack: keep it, pop it (RET), or push pc below the depth
(CALL). -/
theorem exec_stack_cases {i : Instr} {s t : State} (h : exec i s = .next t) :
    t.stack = s.stack ∨ (∃ top, s.stack = top :: t.stack) ∨
    (t.stack = s.pc :: s.stack ∧ s.stackFull = false) := by
  have keep : Part.stack ∉ writesParts i → t.stack = s.stack := (exec_writesOnly h).part .stack
  cases i with
  | ret => obtain ⟨top, rest, hs, rfl⟩ := execRet_next h; exact .inr (.inl ⟨top, hs⟩)
  | call nnn => obtain ⟨hf, rfl⟩ := execCall_next h; exact .inr (.inr ⟨rfl, hf⟩)
  | _ => exact .inl (keep (by simp [writesParts]))

/-- A completed instruction's stack holds only entries of the old one and pc. -/
theorem exec_stack_mem {i : Instr} {s t : State} (h : exec i s = .next t) {e : Word} (he : e ∈ t.stack) :
    e = s.pc ∨ e ∈ s.stack := by
  rcases exec_stack_cases h with hs | ⟨top, hs⟩ | ⟨hs, -⟩
  · exact .inr (hs ▸ he)
  · exact .inr (hs ▸ .tail _ he)
  · exact List.mem_cons.1 (hs ▸ he)

theorem exec_keeps_depthOk {i : Instr} {s t : State} (h : exec i s = .next t) (hd : s.depthOk) : t.depthOk := by
  rw [State.depthOk_iff] at hd ⊢
  intro d htd
  have hsd : s.params.stackDepth = some d := (exec_writesOnly h).params ▸ htd
  have hle := hd d hsd
  rcases exec_stack_cases h with hs | ⟨top, hs⟩ | ⟨hs, hfull⟩
  · exact hs ▸ hle
  · rw [hs, List.length_cons] at hle
    omega
  · have hne : s.stack.length ≠ d := fun e => by
      rw [State.stackFull_iff.2 (e ▸ hsd)] at hfull
      cases hfull
    rw [hs, List.length_cons]
    omega

/-- The new pc of a completed step is at most 0xFFF + 0xFF (`JP V0`), from R25's table (R24). -/
theorem step_pc_le {s t : State} (hstack : ∀ e ∈ s.stack, e.toNat ≤ 0x1000) (h : step s = .next t) :
    t.pc.toNat ≤ 0x10FE := by
  obtain ⟨-, -, hp, -⟩ := step_next_at h
  obtain ⟨i, -, hpc⟩ := everyStepMovesThePcAsTabled s t h
  cases i with
  | ret =>
    have := hstack t.pc (List.mem_of_mem_head? hpc)
    omega
  | jp nnn | call nnn =>
    have := nnn.isLt
    simp only at hpc
    omega
  | jpV0 nnn =>
    have := nnn.isLt
    have := (s.reg 0#4).isLt
    simp only at hpc
    omega
  | seImm | sneImm | seReg | sneReg | skp | sknp | ldKey =>
    simp only at hpc
    split at hpc <;> omega
  | _ =>
    simp only at hpc
    omega

/-- Settles O50: memory by the block a completed instruction stores, pc by R25's table, the stack by what RET and CALL
do to it. -/
theorem everyStepKeepsTheInvariant : Obligations.EveryStepKeepsTheInvariant := by
  unfold Obligations.EveryStepKeepsTheInvariant
  rintro s t ⟨hmem, -, hstack, hdepth⟩ h
  have hpc := step_pc_le hstack h
  obtain ⟨i, u, hp, -, he, rfl⟩ := step_next_at h
  refine ⟨(exec_writesOnly he).mem.keeps_wf hmem, hpc, fun e hin => ?_,
    (exec_keeps_depthOk he hdepth : u.depthOk)⟩
  rcases exec_stack_mem he hin with rfl | hin
  · rw [State.advance_pc, pc_add_two hp]
    omega
  · exact hstack e hin

end Sys2Proof.Machine

/-! ### The memory family (spec/20_memory.md): the reserved region, and words stored and fetched again -/

namespace Sys2Proof.Machine

/-- The block an instruction stores is empty or starts at 0x200 or above, if P_RESERVED_WRITE = FAULT (R57). -/
theorem StoresOnly.above_reserved {i : Instr} {s t : State} (h : StoresOnly i s t)
    (hr : s.params.reservedWrite = .fault) : storeWidth i = 0 ∨ 0x200 ≤ s.blockBase := by
  obtain ⟨bs, hl, rfl | ⟨-, hw | hb⟩, -⟩ := h
  · exact .inl hl.symm
  · cases hr.symm.trans hw
  · exact .inr hb

/-- Settles O52: a step changes memory only by its instruction's block, which misses the reserved region. -/
theorem reservedRegionIsNeverWritten : Obligations.ReservedRegionIsNeverWritten := by
  unfold Obligations.ReservedRegionIsNeverWritten
  intro s t hm hr h
  obtain ⟨i, u, -, -, he, rfl⟩ := step_next_at h
  have hw : WritesOnly i s.advance u := exec_writesOnly he
  refine ⟨(congrArg Params.reservedWrite hw.params).trans hr, fun a ha => ?_⟩
  have hblock := hw.mem.above_reserved hr
  exact hw.mem.read_outside hm (by omega)

/-- The byte LD [I], Vx leaves at I + k is V[k], for every k up to x (R195). -/
theorem read_of_storeRegs {x k : Nibble} {s t : State} (hm : s.mem.wf) (h : exec (.storeRegs x) s = .next t)
    (hk : k.toNat ≤ x.toNat) : t.mem.read (s.blockBase + k.toNat) = s.reg k := by
  obtain ⟨hb, -, rfl⟩ := execStoreRegs_next h
  rw [← s.regsTo_length x] at hb
  rw [State.setMem_mem, Memory.read_writeBlock hm hb, if_pos (by rw [s.regsTo_length]; omega),
    Nat.add_sub_cancel_left, State.regsTo_getD s x k hk]

/-- Settles O47: I + k and I + k + 1 lie in the stored block, so neither address wraps and the fetch reads V[k] and
V[k+1] there. -/
theorem fetchSeesStoredBytes : Obligations.FetchSeesStoredBytes := by
  unfold Obligations.FetchSeesStoredBytes
  intro x k s t hm hk h
  obtain ⟨hb, -, -⟩ := execStoreRegs_next h
  have hx := x.isLt
  have hk1 : (k + 1#4).toNat = k.toNat + 1 := by
    simp only [BitVec.toNat_add, BitVec.toNat_ofNat]
    omega
  have hpc : (s.i + k.setWidth 16).toNat = s.blockBase + k.toNat := by
    simp only [State.blockBase, BitVec.toNat_add, BitVec.toNat_setWidth] at hb ⊢
    omega
  have hhi : t.mem.read (s.blockBase + k.toNat) = s.reg k := read_of_storeRegs hm h hk.le
  have hlo : t.mem.read (s.blockBase + k.toNat + 1) = s.reg (k + 1#4) := by
    rw [Nat.add_assoc, ← hk1]
    exact read_of_storeRegs hm h (by omega)
  rw [State.fetch_ok (by simp only [hpc]; omega)]
  simp only [hpc, hhi, hlo, wordOfBytes]

end Sys2Proof.Machine

/-! ### The encoding family (spec/30_encoding.md): the decoder's answers word by word, and the encoder as its inverse -/

namespace Sys2Proof

section Fields
variable {w : Word} {a : Nibble}

/-! ### A word from its fields, and the fields of nnn -/

theorem wordANNN_fields (ha : fieldA w = a) : wordANNN a (fieldNNN w) = w := ha ▸ word_eq_ANNN w

theorem wordAXKK_fields (ha : fieldA w = a) : wordAXKK a (fieldX w) (fieldKK w) = w := ha ▸ word_eq_AXKK w

theorem wordAXYN_fields (ha : fieldA w = a) : wordAXYN a (fieldX w) (fieldY w) (fieldN w) = w := ha ▸ word_eq_AXYN w

theorem fieldNNN_high (w : Word) : (fieldNNN w).extractLsb' 8 4 = fieldX w := by
  rw [← fieldX_wordANNN (fieldA w), word_eq_ANNN]

theorem fieldNNN_low (w : Word) : (fieldNNN w).extractLsb' 0 8 = fieldKK w := by
  rw [← fieldKK_wordANNN (fieldA w), word_eq_ANNN]

end Fields

/-! ### Family 0 (R76) -/

section FamilyZero
variable {p : Params} {w : Word}

/-- The four kinds of word that R76 tells apart. -/
theorem family0_cases (ha : fieldA w = 0#4) :
    w = 0x00E0#16 ∨ w = 0x00EE#16 ∨
    (fieldX w ≠ 0#4 ∧ (fieldKK w = 0xE0#8 ∨ fieldKK w = 0xEE#8)) ∨
    (fieldKK w ≠ 0xE0#8 ∧ fieldKK w ≠ 0xEE#8) := by
  have hw : wordAXKK 0#4 (fieldX w) (fieldKK w) = w := wordAXKK_fields ha
  by_cases hk : fieldKK w = 0xE0#8 ∨ fieldKK w = 0xEE#8
  · by_cases hx : fieldX w = 0#4
    · rcases hk with hk | hk
      · rw [hx, hk] at hw
        exact .inl hw.symm
      · rw [hx, hk] at hw
        exact .inr (.inl hw.symm)
    · exact .inr (.inr (.inl ⟨hx, hk⟩))
  · exact .inr (.inr (.inr (not_or.1 hk)))

theorem decode0_cls : decode0 p 0x00E0#16 = .ok .cls := rfl

theorem decode0_ret : decode0 p 0x00EE#16 = .ok .ret := rfl

/-- The words 0XE0 and 0XEE with X not 0, under each value of P_0XE_WILDCARD. -/
theorem decode0_wildcard (hx : fieldX w ≠ 0#4) (hk : fieldKK w = 0xE0#8 ∨ fieldKK w = 0xEE#8) :
    (p.zeroXE = .unknown → decode0 p w = .error (.unknownOpcode w)) ∧
    (p.zeroXE = .clsRet → decode0 p w = .ok (if fieldKK w = 0xE0#8 then .cls else .ret)) ∧
    (p.zeroXE = .sys → decode0 p w = .ok (.sys (fieldNNN w))) := by
  have hcls : w ≠ 0x00E0#16 := by rintro rfl; exact hx rfl
  have hret : w ≠ 0x00EE#16 := by rintro rfl; exact hx rfl
  rw [decode0, if_neg hcls, if_neg hret, if_pos ⟨hx, hk⟩]
  exact ⟨fun hp => by rw [hp], fun hp => by rw [hp], fun hp => by rw [hp]⟩

theorem decode0_sys (hk : fieldKK w ≠ 0xE0#8 ∧ fieldKK w ≠ 0xEE#8) : decode0 p w = .ok (.sys (fieldNNN w)) := by
  obtain ⟨hE0, hEE⟩ := hk
  have hcls : w ≠ 0x00E0#16 := by rintro rfl; exact hE0 rfl
  have hret : w ≠ 0x00EE#16 := by rintro rfl; exact hEE rfl
  rw [decode0, if_neg hcls, if_neg hret, if_neg (fun h => h.2.elim hE0 hEE)]

/-- SYS's well-formedness, in the fields of its word. -/
theorem sysWf_fieldNNN_iff : sysWf p (fieldNNN w) = true ↔
    (fieldKK w ≠ 0xE0#8 ∧ fieldKK w ≠ 0xEE#8) ∨ (p.zeroXE = .sys ∧ fieldX w ≠ 0#4) := by
  simp [sysWf, clsRetTail, fieldNNN_high, fieldNNN_low]

theorem decode0_of_sysWf (h : sysWf p (fieldNNN w) = true) : decode0 p w = .ok (.sys (fieldNNN w)) := by
  by_cases hk : fieldKK w ≠ 0xE0#8 ∧ fieldKK w ≠ 0xEE#8
  · exact decode0_sys hk
  · obtain ⟨hp, hx⟩ := (sysWf_fieldNNN_iff.1 h).resolve_left hk
    exact (decode0_wildcard hx (by tauto)).2.2 hp

end FamilyZero

/-! ### Families 5 and 9 (R77), 8 (R79), E (R80) and F (R81) -/

section SubDecoders
variable {p : Params} {w : Word} {i : Instr}

theorem decodeSkipReg_eq (p : Params) (op : Nibble → Nibble → Instr) (w : Word) :
    decodeSkipReg p op w =
      if fieldN w = 0#4 ∨ p.skipN = .accept then .ok (op (fieldX w) (fieldY w)) else .error (.unknownOpcode w) := by
  by_cases hn : fieldN w = 0#4
  · simp [decodeSkipReg, hn]
  · cases hp : p.skipN <;> simp [decodeSkipReg, hn, hp]

/-- Under UNKNOWN a register skip has n = 0. -/
theorem decodeSkipReg_ok {op : Nibble → Nibble → Instr} (hp : p.skipN = .unknown)
    (h : decodeSkipReg p op w = .ok i) : fieldN w = 0#4 ∧ i = op (fieldX w) (fieldY w) := by
  rw [decodeSkipReg_eq, hp] at h
  by_cases hn : fieldN w = 0#4
  · rw [if_pos (.inl hn)] at h
    cases h
    exact ⟨hn, rfl⟩
  · rw [if_neg (by simp [hn])] at h
    cases h

theorem decodeSkipReg_error_iff {op : Nibble → Nibble → Instr} (hp : p.skipN = .unknown) :
    decodeSkipReg p op w = .error (.unknownOpcode w) ↔ fieldN w ≠ 0#4 := by
  by_cases hn : fieldN w = 0#4 <;> simp [decodeSkipReg_eq, hp, hn]

/-- Every answer of family 8 has the word's own x, y and n, and needs no parameter. -/
theorem decode8_ok (h : decode8 w = .ok i) :
    encode i = wordAXYN 0x8#4 (fieldX w) (fieldY w) (fieldN w) ∧ i.wf p = true := by
  rw [decode8] at h
  split_ifs at h <;> cases h <;> exact ⟨by rw [encode, ‹fieldN w = _›], rfl⟩

theorem decode8_error_iff :
    decode8 w = .error (.unknownOpcode w) ↔ fieldN w ∈ [0x8#4, 0x9#4, 0xA#4, 0xB#4, 0xC#4, 0xD#4, 0xF#4] := by
  rw [decode8]
  generalize fieldN w = n
  rcases nibble_cases n with rfl | rfl | rfl | rfl | rfl | rfl | rfl | rfl | rfl | rfl | rfl | rfl | rfl |
    rfl | rfl | rfl <;> simp

/-- Every answer of family E has the word's own x and kk, and needs no parameter. -/
theorem decodeE_ok (h : decodeE w = .ok i) : encode i = wordAXKK 0xE#4 (fieldX w) (fieldKK w) ∧ i.wf p = true := by
  rw [decodeE] at h
  split_ifs at h <;> cases h <;> exact ⟨by rw [encode, ‹fieldKK w = _›], rfl⟩

theorem decodeE_error_iff : decodeE w = .error (.unknownOpcode w) ↔ fieldKK w ∉ [0x9E#8, 0xA1#8] := by
  rw [decodeE]
  split_ifs <;> simp [*]

/-- Every answer of family F has the word's own x and kk, and needs no parameter. -/
theorem decodeF_ok (h : decodeF w = .ok i) : encode i = wordAXKK 0xF#4 (fieldX w) (fieldKK w) ∧ i.wf p = true := by
  rw [decodeF] at h
  split_ifs at h <;> cases h <;> exact ⟨by rw [encode, ‹fieldKK w = _›], rfl⟩

theorem decodeF_error_iff : decodeF w = .error (.unknownOpcode w) ↔
    fieldKK w ∉ [0x07#8, 0x0A#8, 0x15#8, 0x18#8, 0x1E#8, 0x29#8, 0x33#8, 0x55#8, 0x65#8] := by
  rw [decodeF]
  split_ifs <;> simp [*]

/-- With no CLS_RET wildcard, every answer of family 0 has the word's own nnn. -/
theorem decode0_ok (ha : fieldA w = 0#4) (hp : p.zeroXE ≠ .clsRet) (h : decode0 p w = .ok i) :
    encode i = w ∧ i.wf p = true := by
  have sys (hd : decode0 p w = .ok (.sys (fieldNNN w))) (hwf : sysWf p (fieldNNN w) = true) :
      encode i = w ∧ i.wf p = true := by
    cases hd.symm.trans h
    exact ⟨wordANNN_fields ha, hwf⟩
  rcases family0_cases ha with rfl | rfl | ⟨hx, hk⟩ | hk
  · cases h
    exact ⟨rfl, rfl⟩
  · cases h
    exact ⟨rfl, rfl⟩
  · obtain ⟨hunknown, -, hsys⟩ := decode0_wildcard (p := p) hx hk
    cases hz : p.zeroXE with
    | unknown => cases (hunknown hz).symm.trans h
    | clsRet => exact absurd hz hp
    | sys => exact sys (hsys hz) (sysWf_fieldNNN_iff.2 (.inr ⟨hz, hx⟩))
  · exact sys (decode0_sys hk) (sysWf_fieldNNN_iff.2 (.inl hk))

theorem decode0_error_iff (ha : fieldA w = 0#4) (hp : p.zeroXE = .unknown) :
    decode0 p w = .error (.unknownOpcode w) ↔ fieldX w ≠ 0#4 ∧ (fieldKK w = 0xE0#8 ∨ fieldKK w = 0xEE#8) := by
  rcases family0_cases ha with rfl | rfl | ⟨hx, hk⟩ | hk
  · exact iff_of_false (by simp [decode0_cls]) (fun h => h.1 rfl)
  · exact iff_of_false (by simp [decode0_ret]) (fun h => h.1 rfl)
  · exact iff_of_true ((decode0_wildcard hx hk).1 hp) ⟨hx, hk⟩
  · exact iff_of_false (by simp [decode0_sys hk]) (fun h => h.2.elim hk.1 hk.2)

end SubDecoders

/-! ### The decoder and the encoder are inverse -/

/-- The fields of the encoder's word pick out the branch of R74 to R81 that gives the instruction back. -/
theorem decode_encode {p : Params} {i : Instr} (h : i.wf p = true) : decode p (encode i) = .ok i := by
  cases i with
  | cls | ret => rfl
  | sys nnn =>
    have hd : decode0 p (wordANNN 0#4 nnn) = _ := decode0_of_sysWf (by rwa [fieldNNN_wordANNN])
    rw [encode, decode_family0 (fieldA_wordANNN _ _), hd, fieldNNN_wordANNN]
  | jp | call | ldI | jpV0 => simp [encode, decode_family1, decode_family2, decode_familyA, decode_familyB]
  | seImm | sneImm | ldImm | addImm | rnd =>
    simp [encode, decode_family3, decode_family4, decode_family6, decode_family7, decode_familyC]
  | seReg | sneReg => simp [encode, decode_family5, decode_family9, decodeSkipReg_eq]
  | ldReg | orReg | andReg | xorReg | addReg | sub | subn | shr | shl => simp [encode, decode_family8, decode8]
  | drw => simp [encode, decode_familyD]
  | skp | sknp => simp [encode, decode_familyE, decodeE]
  | ldKey | ldDelay | setDelay | setSound | addI | ldFont | ldBcd | storeRegs | loadRegs =>
    simp [encode, decode_familyF, decodeF]

theorem decodeBytes_ok {p : Params} {hi lo : Byte} {i : Instr} (h : decode p (wordOfBytes hi lo) = .ok i)
    (rest : List Byte) : decodeBytes p (hi :: lo :: rest) = .ok (i, rest) := by
  rw [decodeBytes, h]

/-- Settles O1: the two bytes join to the encoder's word, which decodes to the instruction. -/
theorem decodeOfEncodeIsTheInstruction : Obligations.DecodeOfEncodeIsTheInstruction := by
  unfold Obligations.DecodeOfEncodeIsTheInstruction
  intro p i rest hwf
  exact decodeBytes_ok (by rw [wordOfBytes_bytes, decode_encode hwf]) rest

/-- Settles O2: family by family, the answer's pattern filled with the word's own fields is the word. -/
theorem encodeOfDecodeIsTheWord : Obligations.EncodeOfDecodeIsTheWord := by
  unfold Obligations.EncodeOfDecodeIsTheWord
  intro p w i hz hn h
  have of_ok {j : Instr} (hd : decode p w = .ok j) (he : encode j = w) (hwf : j.wf p = true) :
      encode i = w ∧ i.wf p = true := by
    cases hd.symm.trans h
    exact ⟨he, hwf⟩
  rcases nibble_cases (fieldA w) with ha | ha | ha | ha | ha | ha | ha | ha | ha | ha | ha | ha | ha | ha | ha | ha
  · exact decode0_ok ha hz ((decode_family0 ha).symm.trans h)
  · exact of_ok (decode_family1 ha) (wordANNN_fields ha) rfl
  · exact of_ok (decode_family2 ha) (wordANNN_fields ha) rfl
  · exact of_ok (decode_family3 ha) (wordAXKK_fields ha) rfl
  · exact of_ok (decode_family4 ha) (wordAXKK_fields ha) rfl
  · obtain ⟨h0, rfl⟩ := decodeSkipReg_ok hn ((decode_family5 ha).symm.trans h)
    exact ⟨by rw [encode, ← h0, wordAXYN_fields ha], rfl⟩
  · exact of_ok (decode_family6 ha) (wordAXKK_fields ha) rfl
  · exact of_ok (decode_family7 ha) (wordAXKK_fields ha) rfl
  · rw [← wordAXYN_fields ha]
    exact decode8_ok ((decode_family8 ha).symm.trans h)
  · obtain ⟨h0, rfl⟩ := decodeSkipReg_ok hn ((decode_family9 ha).symm.trans h)
    exact ⟨by rw [encode, ← h0, wordAXYN_fields ha], rfl⟩
  · exact of_ok (decode_familyA ha) (wordANNN_fields ha) rfl
  · exact of_ok (decode_familyB ha) (wordANNN_fields ha) rfl
  · exact of_ok (decode_familyC ha) (wordAXKK_fields ha) rfl
  · exact of_ok (decode_familyD ha) (wordAXYN_fields ha) rfl
  · rw [← wordAXKK_fields ha]
    exact decodeE_ok ((decode_familyE ha).symm.trans h)
  · rw [← wordAXKK_fields ha]
    exact decodeF_ok ((decode_familyF ha).symm.trans h)

/-! ### The fields as the statements spell them -/

theorem extractLsb_15_12 (w : Word) : w.extractLsb 15 12 = fieldA w := rfl

theorem extractLsb_11_8 (w : Word) : w.extractLsb 11 8 = fieldX w := rfl

theorem extractLsb_3_0 (w : Word) : w.extractLsb 3 0 = fieldN w := rfl

theorem extractLsb_7_0 (w : Word) : w.extractLsb 7 0 = fieldKK w := rfl

/-- Settles O3: the failures of each family; the words of the other families all decode. -/
theorem illegalWordsAreTheListedOnes : Obligations.IllegalWordsAreTheListedOnes := by
  unfold Obligations.IllegalWordsAreTheListedOnes
  intro w
  have hz : Config.defaults.zeroXE = .unknown := rfl
  have hn : Config.defaults.skipN = .unknown := rfl
  simp only [extractLsb_15_12, extractLsb_11_8, extractLsb_7_0, extractLsb_3_0]
  rcases nibble_cases (fieldA w) with ha | ha | ha | ha | ha | ha | ha | ha | ha | ha | ha | ha | ha | ha | ha | ha
  · simp [decode_family0 ha, decode0_error_iff ha hz, ha]
  · simp [decode_family1 ha, ha]
  · simp [decode_family2 ha, ha]
  · simp [decode_family3 ha, ha]
  · simp [decode_family4 ha, ha]
  · simp [decode_family5 ha, decodeSkipReg_error_iff hn, ha]
  · simp [decode_family6 ha, ha]
  · simp [decode_family7 ha, ha]
  · simp [decode_family8 ha, decode8_error_iff, ha]
  · simp [decode_family9 ha, decodeSkipReg_error_iff hn, ha]
  · simp [decode_familyA ha, ha]
  · simp [decode_familyB ha, ha]
  · simp [decode_familyC ha, ha]
  · simp [decode_familyD ha, ha]
  · simp [decode_familyE ha, decodeE_error_iff, ha]
  · simp [decode_familyF ha, decodeF_error_iff, ha]

/-- Settles O4: the four kinds of word of family 0. -/
theorem familyZeroFollowsItsWildcard : Obligations.FamilyZeroFollowsItsWildcard := by
  unfold Obligations.FamilyZeroFollowsItsWildcard
  intro p w ha
  rw [decode_family0 ha]
  refine ⟨?_, ?_, fun hx hk => ?_, fun hE0 hEE => decode0_sys ⟨hE0, hEE⟩⟩
  · rintro rfl
    exact decode0_cls
  · rintro rfl
    exact decode0_ret
  · obtain ⟨hunknown, hclsRet, hsys⟩ := decode0_wildcard (p := p) hx hk
    cases hz : p.zeroXE with
    | unknown => exact hunknown hz
    | clsRet => exact hclsRet hz
    | sys => exact hsys hz

/-- Settles O5: the n field of the written-out word is n. -/
theorem registerSkipsFollowTheirWildcard : Obligations.RegisterSkipsFollowTheirWildcard := by
  unfold Obligations.RegisterSkipsFollowTheirWildcard
  intro p x y n
  rw [decode_family5 (fieldA_wordAXYN _ _ _ _), decode_family9 (fieldA_wordAXYN _ _ _ _)]
  constructor <;> rw [decodeSkipReg_eq, fieldX_wordAXYN, fieldY_wordAXYN, fieldN_wordAXYN]

/-- Settles O6, by running the decoder on the eight words. -/
theorem writtenOutWordsDecode : Obligations.WrittenOutWordsDecode := by
  unfold Obligations.WrittenOutWordsDecode
  decide

end Sys2Proof

/-! ### The step engine family (spec/40_step_engine.md): fetch, timers, and who reads the step inputs -/

namespace Sys2Proof.Machine

/-! ### The step around an instruction -/

/-- A fetch that raises ends the step (R91). -/
theorem step_of_fetch_error {s : State} {f : Fault} (hf : s.fetch = .error f) : step s = .fault f := by
  simp only [step, hf, raise]

/-- The clamped decrement as one subtraction (R92). -/
theorem countDown_eq_sub (b : Byte) : countDown b = b - (if b = 0#8 then 0#8 else 1#8) := by
  by_cases hb : b = 0#8
  · rw [countDown, if_pos hb, if_pos hb, hb]
    rfl
  · rw [countDown, if_neg hb, if_neg hb]

theorem State.advance_eq (s : State) :
    s.advance = { s with dt := s.dt - (if s.dt = 0#8 then 0#8 else 1#8),
                         st := s.st - (if s.st = 0#8 then 0#8 else 1#8),
                         pc := s.pc + 2#16, result := .noChange } := by
  rw [← countDown_eq_sub, ← countDown_eq_sub]
  rfl

/-- Settles O7: the fetch answers the word at pc, and the sequence goes on with the advanced state. -/
theorem stepRunsTheDecodedInstruction : Obligations.StepRunsTheDecodedInstruction := by
  unfold Obligations.StepRunsTheDecodedInstruction
  intro s i hp hd
  rw [step_of_decode (State.fetch_ok hp) hd, ← State.advance_eq]
  cases exec i s.advance <;> rfl

/-- Settles O8: the three ranges of pc that R91 tells apart. -/
theorem fetchReadsTwoBytesOrFaults : Obligations.FetchReadsTwoBytesOrFaults := by
  unfold Obligations.FetchReadsTwoBytesOrFaults
  intro s
  exact ⟨fun h => step_of_fetch_error (State.fetch_outOfMemory h),
    fun h => step_of_fetch_error (State.fetch_last h), fun h => State.fetch_ok h⟩

/-! ### The timers (R92) -/

section Timers
variable {i : Instr} {s t : State}

/-- LD DT, Vx alone writes the delay timer (R175). -/
theorem exec_dt (h : exec i s = .next t) : t.dt = match i with
    | .setDelay x => s.reg x
    | _ => s.dt := by
  have keep : Part.dt ∉ writesParts i → t.dt = s.dt := (exec_writesOnly h).part .dt
  cases i with
  | setDelay x => cases h; rfl
  | _ => exact keep (by simp [writesParts])

/-- LD ST, Vx alone writes the sound timer (R176). -/
theorem exec_st (h : exec i s = .next t) : t.st = match i with
    | .setSound x => s.reg x
    | _ => s.st := by
  have keep : Part.st ∉ writesParts i → t.st = s.st := (exec_writesOnly h).part .st
  cases i with
  | setSound x => cases h; rfl
  | _ => exact keep (by simp [writesParts])

theorem execLdDelay_reg {x : Nibble} (h : exec (.ldDelay x) s = .next t) : t.reg x = s.dt := by
  cases h
  exact s.reg_setReg_same x s.dt

end Timers

/-- Settles O10: the instruction starts from counted-down timers, and leaves each but for the one instruction that
writes it; after a fault `transact` keeps the state before the step. -/
theorem everyStepCountsTheTimersDown : Obligations.EveryStepCountsTheTimersDown := by
  unfold Obligations.EveryStepCountsTheTimersDown
  intro s
  constructor
  · intro t h
    obtain ⟨i, u, -, hd, he, rfl⟩ := step_next_at h
    have hdt := exec_dt he
    have hst := exec_st he
    refine ⟨i, hd, ?_, ?_, ?_⟩
    · rw [State.nextInput_dt, hdt]
      cases i with
      | setDelay x => rfl
      | _ => exact countDown_toNat s.dt
    · rw [State.nextInput_st, hst]
      cases i with
      | setSound x => rfl
      | _ => exact countDown_toNat s.st
    · rintro x rfl
      rw [State.reg_nextInput, execLdDelay_reg he]
      exact countDown_toNat s.dt
  · intro f h
    rw [transact_fault h]
    exact ⟨rfl, rfl⟩

/-! ### The step inputs (R95) -/

/-- `s` with other step inputs. -/
def State.withInputs (s : State) (inputs : List Input) (tick : Nat) : State :=
  { s with inputs := inputs, tick := tick }

/-- A completed outcome's state with other step inputs; a fault stays. -/
def withInputs (inputs : List Input) (tick : Nat) : Outcome → Outcome
  | .next t => .next (t.withInputs inputs tick)
  | .fault f => .fault f
  | .refused r => .refused r

section Inputs
variable (s : State) (inputs : List Input) (tick : Nat)

@[simp] theorem State.withInputs_stack : (s.withInputs inputs tick).stack = s.stack := rfl
@[simp] theorem State.withInputs_params : (s.withInputs inputs tick).params = s.params := rfl
@[simp] theorem State.withInputs_blockBase : (s.withInputs inputs tick).blockBase = s.blockBase := rfl
@[simp] theorem State.memRead_withInputs (a n : Nat) : (s.withInputs inputs tick).memRead a n = s.memRead a n := rfl

/-- The bounds, the parameters and the bytes decide what a store does. -/
theorem finish_memWrite_withInputs (a : Nat) (bs : List Byte) :
    finish ((s.withInputs inputs tick).memWrite a bs) = withInputs inputs tick (finish (s.memWrite a bs)) := by
  simp only [State.memWrite, State.withInputs_params]
  cases firstOutside a bs.length with
  | some bad => rfl
  | none => cases s.params.reservedWrite <;> cases firstReserved a bs.length <;> rfl

theorem execRet_withInputs :
    execRet (s.withInputs inputs tick) = withInputs inputs tick (execRet s) := by
  simp only [execRet, State.withInputs_stack]
  cases s.stack <;> rfl

theorem execCall_withInputs (nnn : Addr) :
    execCall nnn (s.withInputs inputs tick) = withInputs inputs tick (execCall nnn s) := by
  rw [execCall, execCall, apply_ite (withInputs inputs tick)]
  rfl

theorem execAddI_withInputs (x : Nibble) :
    execAddI x (s.withInputs inputs tick) = withInputs inputs tick (execAddI x s) := by
  rw [execAddI, execAddI, apply_ite (withInputs inputs tick)]
  rfl

theorem execDrw_withInputs (x y n : Nibble) :
    execDrw x y n (s.withInputs inputs tick) = withInputs inputs tick (execDrw x y n s) := by
  simp only [execDrw, State.withInputs_blockBase, State.memRead_withInputs]
  cases s.memRead s.blockBase n.toNat <;> rfl

theorem execLoadRegs_withInputs (x : Nibble) :
    execLoadRegs x (s.withInputs inputs tick) = withInputs inputs tick (execLoadRegs x s) := by
  simp only [execLoadRegs, State.withInputs_blockBase, State.memRead_withInputs]
  cases s.memRead s.blockBase (x.toNat + 1) <;> rfl

variable {s inputs tick}

theorem execSkp_withInputs (hk : (s.withInputs inputs tick).keys = s.keys) (x : Nibble) :
    execSkp x (s.withInputs inputs tick) = withInputs inputs tick (execSkp x s) := by
  rw [execSkp, hk]
  rfl

theorem execSknp_withInputs (hk : (s.withInputs inputs tick).keys = s.keys) (x : Nibble) :
    execSknp x (s.withInputs inputs tick) = withInputs inputs tick (execSknp x s) := by
  rw [execSknp, hk]
  rfl

theorem execLdKey_withInputs (hk : (s.withInputs inputs tick).keys = s.keys) (x : Nibble) :
    execLdKey x (s.withInputs inputs tick) = withInputs inputs tick (execLdKey x s) := by
  rw [execLdKey, execLdKey]
  by_cases h0 : s.keys = 0#16
  · rw [State.keyWait_none (hk.trans h0), State.keyWait_none h0]
    rfl
  · rw [State.keyWait_some (hk ▸ h0), State.keyWait_some h0, hk]
    rfl

theorem execRnd_withInputs (hr : (s.withInputs inputs tick).rnd = s.rnd) (x : Nibble) (kk : Byte) :
    execRnd x kk (s.withInputs inputs tick) = withInputs inputs tick (execRnd x kk s) := by
  rw [execRnd, hr]
  rfl

end Inputs

/-- Settles O49: no operation but the key set and the random byte looks at the inputs. The meanings that branch, or read
those two, are settled one by one; every other one is a chain of field updates, which commutes with the new inputs. -/
theorem onlyInputInstructionsReadTheInputs : Obligations.OnlyInputInstructionsReadTheInputs := by
  unfold Obligations.OnlyInputInstructionsReadTheInputs
  intro i s inputs tick hread
  change exec i (s.withInputs inputs tick) = withInputs inputs tick (exec i s)
  cases i with
  | skp x => exact execSkp_withInputs hread x
  | sknp x => exact execSknp_withInputs hread x
  | ldKey x => exact execLdKey_withInputs hread x
  | rnd x kk => exact execRnd_withInputs hread x kk
  | ldBcd x | storeRegs x => exact finish_memWrite_withInputs s inputs tick _ _
  | ret => exact execRet_withInputs s inputs tick
  | call nnn => exact execCall_withInputs s inputs tick nnn
  | addI x => exact execAddI_withInputs s inputs tick x
  | drw x y n => exact execDrw_withInputs s inputs tick x y n
  | loadRegs x => exact execLoadRegs_withInputs s inputs tick x
  | _ => rfl

end Sys2Proof.Machine

/-! ### The control flow family (spec/41_control_flow.md): jumps, skips, calls and returns -/

namespace Sys2Proof.Machine

/-! ### Jumps (R103, R109) -/

/-- Settles O19: the meaning of SYS is the state itself. -/
theorem sysHasNoEffect : Obligations.SysHasNoEffect := by
  unfold Obligations.SysHasNoEffect
  exact fun _ _ => rfl

/-- Settles O20: the jump sets pc to the zero-extended address. -/
theorem jumpGoesToItsAddress : Obligations.JumpGoesToItsAddress := by
  unfold Obligations.JumpGoesToItsAddress
  exact fun nnn s => ⟨s.setPc (addrOf nnn), rfl, addrOf_toNat nnn, rfl⟩

/-- Settles O21: the 16-bit sum is the unbounded one. -/
theorem jumpV0AddsRegisterZero : Obligations.JumpV0AddsRegisterZero := by
  unfold Obligations.JumpV0AddsRegisterZero
  exact fun nnn s => ⟨s.setPc (addrOf nnn + (s.reg 0#4).setWidth 16), rfl, addrOf_add_byte_toNat nnn _, rfl⟩

/-! ### Skips (R100) -/

/-- A skip on a test of `P`, as one addition to pc. -/
theorem State.skipIf_of_iff (s : State) {c : Bool} {P : Prop} [Decidable P] (h : c = true ↔ P) :
    s.skipIf c = { s with pc := s.pc + (if P then 2#16 else 0#16) } := by
  by_cases hP : P
  · rw [if_pos hP, h.2 hP]
    rfl
  · rw [if_neg hP, BitVec.add_zero, Bool.eq_false_iff.2 (mt h.1 hP)]
    rfl

/-- Settles O25: each skip's test decides its comparison. -/
theorem compareSkips : Obligations.CompareSkips := by
  unfold Obligations.CompareSkips
  intro x y kk s
  exact ⟨congrArg _ (s.skipIf_of_iff beq_iff_eq), congrArg _ (s.skipIf_of_iff bne_iff_ne),
    congrArg _ (s.skipIf_of_iff beq_iff_eq), congrArg _ (s.skipIf_of_iff bne_iff_ne)⟩

/-! ### Calls and returns (R102, R104) -/

theorem execCall_of_room {s : State} (h : s.params.stackDepth ≠ some s.stack.length) (nnn : Addr) :
    exec (.call nnn) s = .next ((s.push s.pc).setPc (addrOf nnn)) := by
  rw [exec, execCall, if_neg (mt State.stackFull_iff.1 h)]

theorem execRet_of_cons {s : State} {top : Word} {rest : List Word} (h : s.stack = top :: rest) :
    exec .ret s = .next ((s.setStack rest).setPc top) := by
  simp only [exec, execRet, h]

theorem execRet_of_nil {s : State} (h : s.stack = []) : exec .ret s = .fault (.stackUnderflow s.fetchAddr) := by
  simp only [exec, execRet, h, raise]

/-- Settles O23: the two forms of the stack. -/
theorem returnPopsTheStack : Obligations.ReturnPopsTheStack := by
  unfold Obligations.ReturnPopsTheStack
  exact fun s => ⟨fun _ _ h => execRet_of_cons h, execRet_of_nil⟩

/-! ### A CALL and its RET, as two steps -/

/-- A step of an instruction's own word at pc executes that instruction on the advanced state. -/
theorem step_of_wordAt {s u : State} {i : Instr} (hp : s.pc.toNat ≤ 0xFFE)
    (hw : s.wordAt s.pc.toNat = encode i) (hwf : i.wf s.params = true) (he : exec i s.advance = .next u) :
    step s = .next u.nextInput := by
  have hf : s.fetch = .ok (encode i) := (State.fetch_ok hp).trans (congrArg _ hw)
  rw [step_of_decode hf (decode_encode hwf), he, commit]

/-- The state after a step of CALL nnn with room on the stack: the advanced pc is pushed. -/
def State.called (s : State) (nnn : Addr) : State :=
  ((s.advance.push s.advance.pc).setPc (addrOf nnn)).nextInput

theorem step_call {s : State} {nnn : Addr} (hp : s.pc.toNat ≤ 0xFFE)
    (hw : s.wordAt s.pc.toNat = encode (.call nnn)) (hroom : s.params.stackDepth ≠ some s.stack.length) :
    step s = .next (s.called nnn) :=
  step_of_wordAt hp hw rfl (execCall_of_room (s := s.advance) hroom nnn)

theorem State.called_pc_toNat (s : State) (nnn : Addr) : (s.called nnn).pc.toNat = nnn.toNat := addrOf_toNat nnn

theorem State.called_stack (s : State) (nnn : Addr) : (s.called nnn).stack = (s.pc + 2#16) :: s.stack := rfl

@[simp] theorem State.called_v (s : State) (nnn : Addr) : (s.called nnn).v = s.v := by simp [State.called]

@[simp] theorem State.called_mem (s : State) (nnn : Addr) : (s.called nnn).mem = s.mem := by simp [State.called]

@[simp] theorem State.wordAt_called (s : State) (nnn : Addr) (a : Nat) : (s.called nnn).wordAt a = s.wordAt a := by
  simp [State.wordAt]

theorem step_ret {s : State} {top : Word} {rest : List Word} (hp : s.pc.toNat ≤ 0xFFE)
    (hw : s.wordAt s.pc.toNat = encode .ret) (hs : s.stack = top :: rest) :
    step s = .next ((s.advance.setStack rest).setPc top).nextInput :=
  step_of_wordAt hp hw rfl (execRet_of_cons (s := s.advance) hs)

/-- Settles O24: the CALL leaves the address after it on top of the stack and memory as it was, so the RET is fetched
at nnn and pops that address. -/
theorem callThenReturnComesBack : Obligations.CallThenReturnComesBack := by
  unfold Obligations.CallThenReturnComesBack
  intro s nnn hp hn hcall hret hroom
  have hpc : (s.called nnn).pc.toNat = nnn.toNat := s.called_pc_toNat nnn
  have hword : (s.called nnn).wordAt (s.called nnn).pc.toNat = encode .ret := by
    rw [hpc, State.wordAt_called]
    exact hret
  refine ⟨s.called nnn, _, step_call hp hcall hroom, step_ret (hpc ▸ hn) hword (s.called_stack nnn),
    hpc, s.called_stack nnn, ?_⟩
  simp

end Sys2Proof.Machine

/-! ### The register and arithmetic family (spec/42_alu.md): loads, logic, sums, differences, shifts, random bytes -/

namespace Sys2Proof.Machine

/-! ### Flags and differences as integers -/

@[simp] theorem carryFlag_toNat (a b : Byte) : (carryFlag a b).toNat = if a.toNat + b.toNat > 255 then 1 else 0 := by
  simp only [carryFlag, flagOf_toNat, decide_eq_true_eq]

@[simp] theorem notBorrowFlag_toNat (a b : Byte) :
    (notBorrowFlag a b).toNat = if a.toNat ≥ b.toNat then 1 else 0 := by
  simp only [notBorrowFlag, flagOf_toNat, decide_eq_true_eq]

/-- The model adds 256 before it subtracts; modulo 256 that is the signed difference. -/
theorem subResult_toInt (a b : Byte) : ((subResult a b).toNat : Int) = (a.toNat - b.toNat : Int) % 256 := by
  have hb := b.isLt
  rw [subResult_toNat]
  omega

/-! ### An instruction that writes one register, or one register and then VF -/

/-- An instruction whose meaning is one register write: what holds of the byte written holds of V[x] afterwards, and
nothing else changes. -/
theorem completesWith_of_setReg {i : Instr} {s : State} {x : Nibble} {b : Byte} (B : Byte → Prop)
    (he : exec i s = .next (s.setReg x b)) (hb : B b) :
    CompletesWith i s fun t => B (t.reg x) ∧ KeepsRegsBut [x] s t ∧ t = { s with v := t.v } := by
  refine ⟨s.setReg x b, he, ?_, fun r hr => ?_, rfl⟩
  · rwa [State.reg_setReg_same]
  · exact s.reg_setReg_other b (List.ne_of_not_mem_cons hr)

/-- An instruction whose meaning is a result and then a flag (R120 c): VF is the flag for every x, and V[x] is the
result unless the flag has replaced it. -/
theorem completesWith_of_setRegFlag {i : Instr} {s : State} {x : Nibble} {b flag : Byte} {c : Nat} (B : Byte → Prop)
    (he : exec i s = .next (s.setRegFlag x b flag)) (hb : B b) (hf : flag.toNat = c) :
    CompletesWith i s fun t => (x ≠ vf → B (t.reg x)) ∧ (t.reg vf).toNat = c ∧
      KeepsRegsBut [x, vf] s t ∧ t = { s with v := t.v } := by
  refine ⟨s.setRegFlag x b flag, he, fun hx => ?_, ?_, fun r hr => ?_, rfl⟩
  · rwa [State.reg_setRegFlag, if_neg hx, if_pos rfl]
  · rwa [State.reg_setRegFlag, if_pos rfl]
  · obtain ⟨hrx, hrf⟩ : r ≠ x ∧ r ≠ vf := by simpa using hr
    rw [State.reg_setRegFlag, if_neg hrf, if_neg hrx]

/-! ### Loads, logic and random bytes: one register, no flag -/

/-- Settles O26: each load is one register write of its source. -/
theorem loadsSetTheRegister : Obligations.LoadsSetTheRegister := by
  unfold Obligations.LoadsSetTheRegister
  intro x y kk s
  exact ⟨wordAXKK_append _ _ _, wordAXYN_append _ _ _ _,
    completesWith_of_setReg (· = kk) rfl rfl, completesWith_of_setReg (· = s.reg y) rfl rfl⟩

/-- Settles O27: each operation is one register write of a bitwise result. -/
theorem logicSetsEachBit : Obligations.LogicSetsEachBit := by
  unfold Obligations.LogicSetsEachBit
  intro x y s
  refine ⟨wordAXYN_append _ _ _ _, wordAXYN_append _ _ _ _, wordAXYN_append _ _ _ _, ?_, ?_, ?_⟩
  · exact completesWith_of_setReg (fun b => ∀ k, b.getLsbD k = ((s.reg x).getLsbD k || (s.reg y).getLsbD k))
      rfl fun _ => BitVec.getLsbD_or
  · exact completesWith_of_setReg (fun b => ∀ k, b.getLsbD k = ((s.reg x).getLsbD k && (s.reg y).getLsbD k))
      rfl fun _ => BitVec.getLsbD_and
  · exact completesWith_of_setReg (fun b => ∀ k, b.getLsbD k = ((s.reg x).getLsbD k ^^ (s.reg y).getLsbD k))
      rfl fun _ => BitVec.getLsbD_xor

/-- Settles O32: one register write of the masked random byte, which is that of the first settled input. -/
theorem randomIsTheOfferedByteMasked : Obligations.RandomIsTheOfferedByteMasked := by
  unfold Obligations.RandomIsTheOfferedByteMasked
  intro x kk s
  exact ⟨completesWith_of_setReg (fun b => ∀ k, b.getLsbD k = (s.rnd.getLsbD k && kk.getLsbD k))
      rfl fun _ => BitVec.getLsbD_and,
    fun _ _ => s.rnd_of_inputs⟩

/-! ### Sums, differences and shifts: one register, then VF -/

/-- Settles O28: the sum with kk, then its carry. -/
theorem addImmediateSetsCarry : Obligations.AddImmediateSetsCarry := by
  unfold Obligations.AddImmediateSetsCarry
  intro x kk s
  exact ⟨wordAXKK_append _ _ _, completesWith_of_setRegFlag (·.toNat = ((s.reg x).toNat + kk.toNat) % 256)
    rfl (addResult_toNat _ _) (carryFlag_toNat _ _)⟩

/-- Settles O29: the sum of both registers as they were, then its carry, so VF may be an operand. -/
theorem addRegistersSetsCarry : Obligations.AddRegistersSetsCarry := by
  unfold Obligations.AddRegistersSetsCarry
  intro x y s
  exact ⟨wordAXYN_append _ _ _ _,
    completesWith_of_setRegFlag (·.toNat = ((s.reg x).toNat + (s.reg y).toNat) % 256)
      rfl (addResult_toNat _ _) (carryFlag_toNat _ _)⟩

/-- Settles O30: the two differences, with minuend and subtrahend exchanged, then the not-borrow. -/
theorem subtractionsSetNotBorrow : Obligations.SubtractionsSetNotBorrow := by
  unfold Obligations.SubtractionsSetNotBorrow
  intro x y s
  refine ⟨wordAXYN_append _ _ _ _, wordAXYN_append _ _ _ _, ?_, ?_⟩
  · exact completesWith_of_setRegFlag (fun b => (b.toNat : Int) = ((s.reg x).toNat - (s.reg y).toNat : Int) % 256)
      rfl (subResult_toInt _ _) (notBorrowFlag_toNat _ _)
  · exact completesWith_of_setRegFlag (fun b => (b.toNat : Int) = ((s.reg y).toNat - (s.reg x).toNat : Int) % 256)
      rfl (subResult_toInt _ _) (notBorrowFlag_toNat _ _)

/-- Settles O31: V[x] shifted by one, then the low or the high bit it had; y is not read. -/
theorem shiftsSetTheBitShiftedOut : Obligations.ShiftsSetTheBitShiftedOut := by
  unfold Obligations.ShiftsSetTheBitShiftedOut
  intro x y s
  refine ⟨wordAXYN_append _ _ _ _, wordAXYN_append _ _ _ _, ?_, ?_⟩
  · exact completesWith_of_setRegFlag (·.toNat = (s.reg x).toNat / 2)
      rfl (shrResult_toNat _) (lowBitFlag_toNat _)
  · exact completesWith_of_setRegFlag (·.toNat = 2 * (s.reg x).toNat % 256)
      rfl (shlResult_toNat _) (highBitFlag_toNat _)

end Sys2Proof.Machine

/-! ### The display family (spec/43_display.md): the clear, and the draw as one mask XORed onto the grid -/

namespace Sys2Proof.Machine

/-! ### Clear (R151, R152) -/

/-- Settles O34: the buffer CLS leaves is `cleared`. -/
theorem clearSetsEveryCellToZero : Obligations.ClearSetsEveryCellToZero := by
  unfold Obligations.ClearSetsEveryCellToZero
  exact ⟨rfl, fun s => ⟨(s.setFb cleared).setResult .displayUpdated, rfl, cell_cleared, rfl, rfl⟩⟩

/-! ### Sets of cells -/

/-- A set of cells, by row and column. -/
abbrev Mask := Nat → Nat → Bool

/-- The mask has a cell on the grid. -/
def Mask.MeetsGrid (m : Mask) : Prop := ∃ r < 32, ∃ c < 64, m r c = true

theorem Mask.meetsGrid_congr {m m' : Mask} (h : ∀ r < 32, ∀ c < 64, m r c = m' r c) :
    m.MeetsGrid ↔ m'.MeetsGrid :=
  exists_congr fun r => and_congr_right fun hr => exists_congr fun c => and_congr_right fun hc => by rw [h r hr c hc]

theorem Mask.meetsGrid_or (m m' : Mask) :
    Mask.MeetsGrid (fun r c => m r c || m' r c) ↔ m.MeetsGrid ∨ m'.MeetsGrid := by
  simp only [Mask.MeetsGrid, Bool.or_eq_true, and_or_left, exists_or]

/-! ### What a piece of a draw does to the grid -/

/-- From `d` to `d'` the cells of `m` flip, and a collision is added exactly when one of them was lit in `d`. -/
structure Paints (m : Mask) (d d' : Draw) : Prop where
  cells : ∀ r < 32, ∀ c < 64, cell d'.1 r c = (cell d.1 r c ^^ m r c)
  hits : d'.2 = true ↔ d.2 = true ∨ Mask.MeetsGrid fun r c => cell d.1 r c && m r c

namespace Paints

/-- Painting no cell changes nothing. -/
theorem refl (d : Draw) : Paints (fun _ _ => false) d d where
  cells := by simp
  hits := by simp [Mask.MeetsGrid]

/-- Only the cells of the grid matter. -/
theorem congr {m m' : Mask} {d d' : Draw} (h : Paints m d d') (hm : ∀ r < 32, ∀ c < 64, m r c = m' r c) :
    Paints m' d d' where
  cells r hr c hc := hm r hr c hc ▸ h.cells r hr c hc
  hits := h.hits.trans (or_congr_right (Mask.meetsGrid_congr fun r hr c hc => by rw [hm r hr c hc]))

/-- Two disjoint pieces, one after the other: the second meets every cell of its own as it was before the first
(R155 a). -/
theorem trans {m m' : Mask} {d d' d'' : Draw} (h : Paints m d d') (h' : Paints m' d' d'')
    (hdisj : ∀ r c, m r c = true → m' r c = false) : Paints (fun r c => m r c || m' r c) d d'' where
  cells r hr c hc := by
    rw [h'.cells r hr c hc, h.cells r hr c hc]
    cases hm : m r c with
    | false => simp
    | true => simp [hdisj r c hm]
  hits := by
    have unmoved : ∀ r < 32, ∀ c < 64, (cell d'.1 r c && m' r c) = (cell d.1 r c && m' r c) := by
      intro r hr c hc
      rw [h.cells r hr c hc]
      cases hm : m r c with
      | false => simp
      | true => simp [hdisj r c hm]
    rw [h'.hits, h.hits, Mask.meetsGrid_congr unmoved, or_assoc, ← Mask.meetsGrid_or]
    simp only [Bool.and_or_distrib_left]

/-- A fold over pieces that are pairwise disjoint paints their union. -/
theorem foldl {α : Type} {f : Draw → α → Draw} {m : α → Mask} {l : List α}
    (hf : ∀ a ∈ l, ∀ d, Paints (m a) d (f d a))
    (hdisj : l.Pairwise fun a b => ∀ r c, m a r c = true → m b r c = false) (d : Draw) :
    Paints (fun r c => l.any (m · r c)) d (l.foldl f d) := by
  induction l generalizing d with
  | nil => exact refl d
  | cons a l ih =>
    obtain ⟨ha, hl⟩ := List.pairwise_cons.1 hdisj
    have head : Paints (m a) d (f d a) := hf a List.mem_cons_self d
    have tail := ih (fun b hb => hf b (List.mem_cons_of_mem a hb)) hl (f d a)
    refine head.trans tail fun r c hr => ?_
    simpa using fun b hb => ha b hb r c hr

end Paints

/-! ### A sprite as a mask (R150) -/

/-- The torus the other way round: the grid row that sprite row `k` falls on is the one that shows sprite row `k`. -/
theorem eq_add_mod_iff_spriteRow {oy r k : Nat} (hr : r < 32) (hk : k < 32) :
    r = (oy + k) % 32 ↔ spriteRow oy r = k := by
  unfold spriteRow
  omega

theorem eq_add_mod_iff_spriteCol {ox c j : Nat} (hc : c < 64) (hj : j < 64) :
    c = (ox + j) % 64 ↔ spriteCol ox c = j := by
  unfold spriteCol
  omega

/-- The origin counts modulo the grid's height and width. -/
@[simp] theorem spriteRow_mod (oy r : Nat) : spriteRow (oy % 32) r = spriteRow oy r := by
  rw [spriteRow, spriteRow, Nat.mod_mod]

@[simp] theorem spriteCol_mod (ox c : Nat) : spriteCol (ox % 64) c = spriteCol ox c := by
  rw [spriteCol, spriteCol, Nat.mod_mod]

/-- The cell that column `j` of sprite row `k` falls on, where its bit is 1. -/
def bitMask (ox oy k : Nat) (row : Byte) (j : Nat) : Mask := fun r c =>
  spriteBit row j && decide (spriteRow oy r = k) && decide (spriteCol ox c = j)

/-- The cells that a sprite row, given with its number, has a bit 1 on. -/
def rowMask (ox oy : Nat) (row : Byte × Nat) : Mask := fun r c =>
  decide (spriteRow oy r = row.2) && decide (spriteCol ox c < 8) && spriteBit row.1 (spriteCol ox c)

/-- The cells that a sprite has a bit 1 on. -/
def spriteMask (ox oy : Nat) (rows : List Byte) : Mask := fun r c =>
  decide (spriteRow oy r < rows.length) && decide (spriteCol ox c < 8) &&
    spriteBit (rows.getD (spriteRow oy r) 0#8) (spriteCol ox c)

/-- A row is its eight columns. -/
theorem any_bitMask (ox oy : Nat) (row : Byte × Nat) (r c : Nat) :
    (List.range 8).any (bitMask ox oy row.2 row.1 · r c) = rowMask ox oy row r c := by
  rw [Bool.eq_iff_iff, List.any_eq_true]
  simp only [bitMask, rowMask, Bool.and_eq_true, decide_eq_true_eq, List.mem_range]
  constructor
  · rintro ⟨j, hj, ⟨hbit, hr⟩, rfl⟩
    exact ⟨⟨hr, hj⟩, hbit⟩
  · rintro ⟨⟨hr, hc⟩, hbit⟩
    exact ⟨_, hc, ⟨hbit, hr⟩, rfl⟩

/-- A sprite is its rows. -/
theorem any_rowMask (ox oy : Nat) (rows : List Byte) (r c : Nat) :
    rows.zipIdx.any (rowMask ox oy · r c) = spriteMask ox oy rows r c := by
  rw [Bool.eq_iff_iff, List.any_eq_true]
  by_cases hr : spriteRow oy r < rows.length
  · simp [rowMask, spriteMask, List.mem_zipIdx_iff_getElem?, hr]
  · simp [rowMask, spriteMask, List.mem_zipIdx_iff_getElem?, hr]

/-- Two columns of a row fall on different cells. -/
theorem bitMask_disjoint (ox oy k : Nat) (row : Byte) {j j' : Nat} (h : j ≠ j') {r c : Nat}
    (hm : bitMask ox oy k row j r c = true) : bitMask ox oy k row j' r c = false := by
  obtain ⟨-, rfl⟩ : _ ∧ spriteCol ox c = j := by
    simpa only [bitMask, Bool.and_eq_true, decide_eq_true_eq] using hm
  simp [bitMask, h]

/-- Two rows of a sprite fall on different cells. -/
theorem rowMask_disjoint (ox oy : Nat) {a b : Byte × Nat} (h : a.2 ≠ b.2) {r c : Nat}
    (hm : rowMask ox oy a r c = true) : rowMask ox oy b r c = false := by
  obtain ⟨⟨hr, -⟩, -⟩ : (spriteRow oy r = a.2 ∧ _) ∧ _ := by
    simpa only [rowMask, Bool.and_eq_true, decide_eq_true_eq] using hm
  simp [rowMask, hr, h]

/-! ### The draw paints its sprite -/

/-- One cell of a draw: the XOR moves that cell alone, and the collision looks at that cell alone. -/
theorem drawCell_paints (ox oy : Nat) {k j : Nat} (row : Byte) (hk : k < 32) (hj : j < 64) (d : Draw) :
    Paints (bitMask ox oy k row j) d (drawCell ox oy k row d j) := by
  have hr : (oy + k) % 32 < 32 := Nat.mod_lt _ (by decide)
  have hc : (ox + j) % 64 < 64 := Nat.mod_lt _ (by decide)
  have point : Paints (fun r c => spriteBit row j && decide (r = (oy + k) % 32) && decide (c = (ox + j) % 64)) d
      (drawCell ox oy k row d j) :=
    { cells := fun r _ c _ => cell_xorCell d.1 hr hc (spriteBit row j) r c
      hits := by simp [drawCell, Mask.MeetsGrid, hr, hc] }
  refine point.congr fun r hr c hc => ?_
  simp only [bitMask, eq_add_mod_iff_spriteRow hr hk, eq_add_mod_iff_spriteCol hc hj]

theorem drawRow_paints (ox oy : Nat) {row : Byte × Nat} (hk : row.2 < 32) (d : Draw) :
    Paints (rowMask ox oy row) d (drawRow ox oy d row) := by
  have columns : ∀ j ∈ List.range 8, ∀ d,
      Paints (bitMask ox oy row.2 row.1 j) d (drawCell ox oy row.2 row.1 d j) := fun j hj =>
    drawCell_paints ox oy row.1 hk (by rw [List.mem_range] at hj; omega)
  exact (Paints.foldl columns (List.nodup_range.imp fun h _ _ => bitMask_disjoint ox oy row.2 row.1 h) d).congr
    fun r _ c _ => any_bitMask ox oy row r c

/-- The rows of a sprite are numbered apart. -/
theorem pairwise_zipIdx_snd_ne (rows : List Byte) : rows.zipIdx.Pairwise fun a b => a.2 ≠ b.2 :=
  List.pairwise_map.1 (List.nodup_zipIdx_map_snd rows)

/-- `draw` in closed form: up to 32 rows are painted as one mask, against the buffer before the draw (R150, R155). -/
theorem draw_paints (ox oy : Nat) {rows : List Byte} (hlen : rows.length ≤ 32) (fb : Display) :
    Paints (spriteMask ox oy rows) (fb, false) (draw ox oy rows fb) := by
  have each : ∀ row ∈ rows.zipIdx, ∀ d, Paints (rowMask ox oy row) d (drawRow ox oy d row) := fun row hrow =>
    drawRow_paints ox oy (by have := List.snd_lt_of_mem_zipIdx hrow; omega)
  exact (Paints.foldl each ((pairwise_zipIdx_snd_ne rows).imp fun h _ _ => rowMask_disjoint ox oy h) _).congr
    fun r _ c _ => any_rowMask ox oy rows r c

section Draw
variable (ox oy : Nat) {rows : List Byte} (hlen : rows.length ≤ 32) (fb : Display)
include hlen

theorem cell_draw {r c : Nat} (hr : r < 32) (hc : c < 64) :
    cell (draw ox oy rows fb).1 r c = (cell fb r c ^^ spriteMask ox oy rows r c) :=
  (draw_paints ox oy hlen fb).cells r hr c hc

theorem draw_collides_iff :
    (draw ox oy rows fb).2 = true ↔ Mask.MeetsGrid fun r c => cell fb r c && spriteMask ox oy rows r c := by
  simpa using (draw_paints ox oy hlen fb).hits

end Draw

/-- Settles O36: the second draw flips the same mask back, and a cell of the mask is lit after the first draw exactly
when the first draw lit it. -/
theorem drawTwiceRestoresTheBuffer : Obligations.DrawTwiceRestoresTheBuffer := by
  unfold Obligations.DrawTwiceRestoresTheBuffer
  intro ox oy rows fb h15
  have hlen : rows.length ≤ 32 := by omega
  constructor
  · refine display_ext fun r hr c hc => ?_
    rw [cell_draw ox oy hlen _ hr hc, cell_draw ox oy hlen fb hr hc, Bool.xor_assoc, Bool.xor_self, Bool.xor_false]
  · have lit : ∀ r < 32, ∀ c < 64, (cell (draw ox oy rows fb).1 r c && spriteMask ox oy rows r c) =
        (!cell fb r c && cell (draw ox oy rows fb).1 r c) := by
      intro r hr c hc
      rw [cell_draw ox oy hlen fb hr hc]
      cases cell fb r c <;> simp
    rw [draw_collides_iff ox oy hlen, Mask.meetsGrid_congr lit]
    simp only [Mask.MeetsGrid, Bool.and_eq_true, Bool.not_eq_true']

/-! ### DRW (R154) -/

/-- A block of rows inside memory, or of none, is drawn. -/
theorem execDrw_of_inside {s : State} {n : Nibble} (h : n = 0#4 ∨ s.i.toNat + n.toNat ≤ 0x1000) (x y : Nibble) :
    exec (.drw x y n) s =
      .next (s.drawn ((s.reg x).toNat % 64) ((s.reg y).toNat % 32) (s.mem.readBlock s.blockBase n.toNat)) := by
  have hin : n.toNat = 0 ∨ s.blockBase + n.toNat ≤ 0x1000 := h.imp_left (congrArg BitVec.toNat)
  rw [exec, execDrw, State.memRead_ok hin]

/-- The mask of the rows DRW reads is the sprite at M[I], wherever the origin lies. -/
theorem spriteMask_readBlock (s : State) (vx vy n r c : Nat) :
    spriteMask (vx % 64) (vy % 32) (s.mem.readBlock s.blockBase n) r c = s.spriteOn vx vy n r c := by
  rw [spriteMask, State.spriteOn, spriteRow_mod, spriteCol_mod, Memory.readBlock_length]
  by_cases hr : spriteRow vy r < n
  · rw [Memory.readBlock_getD _ _ hr, spriteBit, State.blockBase]
  · simp [hr]

section DrawnSprite
variable (s : State) (vx vy : Nat) {n : Nat} (hn : n ≤ 32)
include hn

theorem cell_draw_readBlock {r c : Nat} (hr : r < 32) (hc : c < 64) :
    cell (draw (vx % 64) (vy % 32) (s.mem.readBlock s.blockBase n) s.fb).1 r c =
      (cell s.fb r c ^^ s.spriteOn vx vy n r c) := by
  rw [cell_draw _ _ (by rwa [Memory.readBlock_length]) _ hr hc, spriteMask_readBlock]

theorem draw_readBlock_collides_iff :
    (draw (vx % 64) (vy % 32) (s.mem.readBlock s.blockBase n) s.fb).2 = true ↔
      ∃ r < 32, ∃ c < 64, cell s.fb r c = true ∧ s.spriteOn vx vy n r c = true := by
  rw [draw_collides_iff _ _ (by rwa [Memory.readBlock_length])]
  simp only [Mask.MeetsGrid, spriteMask_readBlock, Bool.and_eq_true]

end DrawnSprite

/-- Settles O35: the draw XORs `spriteOn` onto the grid, and VF is the flag of its collision. -/
theorem drawXorsTheSpriteOntoTheGrid : Obligations.DrawXorsTheSpriteOntoTheGrid := by
  unfold Obligations.DrawXorsTheSpriteOntoTheGrid
  intro x y n s h
  have hn : n.toNat ≤ 32 := by omega
  have collision := draw_readBlock_collides_iff s (s.reg x).toNat (s.reg y).toNat hn
  refine ⟨_, execDrw_of_inside h x y, fun r hr c hc => ?_, fun hit => ?_, fun miss => ?_, fun r hr => ?_, rfl, rfl⟩
  · exact cell_draw_readBlock s _ _ hn hr hc
  · rw [State.reg_drawn, if_pos rfl, collision.2 hit, flagOf, if_pos rfl]
  · have clear := mt collision.1 (by simpa using miss)
    rw [State.reg_drawn, if_pos rfl, flagOf, if_neg clear]
  · rw [State.reg_drawn, if_neg (List.ne_of_not_mem_cons hr)]

end Sys2Proof.Machine

/-! ### The key and timer family (spec/44_keys_timers.md): key skips, the key wait, timer transfers -/

namespace Sys2Proof.Machine

/-! ### Keys (R170 to R173) -/

/-- SKNP's test is the negation of SKP's. -/
theorem not_keyIn_iff (b : Byte) (keys : BitVec 16) :
    (!keyIn b keys) = true ↔ ¬(b.toNat < 16 ∧ keys.getLsbD b.toNat = true) := by
  rw [Bool.not_eq_true', ← Bool.not_eq_true, keyIn_iff]

/-- Settles O37: each skip's test decides membership in the key set, SKNP's with the outcomes exchanged. -/
theorem keySkips : Obligations.KeySkips := by
  unfold Obligations.KeySkips
  intro x s
  refine ⟨wordAXKK_append _ _ _, wordAXKK_append _ _ _, ?_, ?_⟩
  · exact congrArg _ (s.skipIf_of_iff (keyIn_iff _ _))
  · rw [← ite_not]
    exact congrArg _ (s.skipIf_of_iff (not_keyIn_iff _ _))

/-- The byte LD Vx, K loads from a non-empty set is a pressed key. -/
theorem chosenKey_byte_mem {keys : BitVec 16} (h : keys ≠ 0#16) :
    ((chosenKey keys).setWidth 8).toNat < 16 ∧ keys.getLsbD ((chosenKey keys).setWidth 8).toNat = true := by
  rw [BitVec.toNat_setWidth_of_le (by decide)]
  exact ⟨(chosenKey keys).isLt, chosenKey_mem h⟩

/-- Settles O38: the two forms of the key wait; the second is one register write of a pressed key. -/
theorem keyWaitTakesSomePressedKey : Obligations.KeyWaitTakesSomePressedKey := by
  unfold Obligations.KeyWaitTakesSomePressedKey
  intro x s
  refine ⟨fun hnone => congrArg _ (State.keyWait_none hnone x), fun hsome => ?_⟩
  exact completesWith_of_setReg (fun b => b.toNat < 16 ∧ s.keys.getLsbD b.toNat = true)
    (congrArg _ (State.keyWait_some hsome x)) (chosenKey_byte_mem hsome)

/-! ### Timers (R174 to R176) -/

/-- Settles O39: one register write of DT, and the two timer writes of V[x]. -/
theorem timerTransfers : Obligations.TimerTransfers := by
  unfold Obligations.TimerTransfers
  exact fun x s => ⟨completesWith_of_setReg (· = s.dt) rfl rfl, rfl, rfl⟩

/-- A step of LD Vx, DT loads the timer that has already counted down (R92). -/
theorem step_ldDelay {s : State} {x : Nibble} (hp : s.pc.toNat ≤ 0xFFE)
    (hw : s.wordAt s.pc.toNat = encode (.ldDelay x)) :
    step s = .next (s.advance.setReg x (countDown s.dt)).nextInput :=
  step_of_wordAt hp hw rfl rfl

/-- Settles O40: V[x] and DT both end as the counted-down DT. -/
theorem delayReadSeesTheDecrement : Obligations.DelayReadSeesTheDecrement := by
  unfold Obligations.DelayReadSeesTheDecrement
  intro s x hp hw
  refine ⟨_, step_ldDelay hp (hw.trans (wordAXKK_append _ _ _).symm), ?_, ?_⟩
  · rw [State.reg_nextInput, State.reg_setReg_same, countDown_toNat]
  · rw [State.nextInput_dt, State.setReg_dt, State.advance_dt, countDown_toNat]

end Sys2Proof.Machine

/-! ### The memory pointer family (spec/45_memory_pointer.md): loads of I, digits, register dumps and loads -/

namespace Sys2Proof.Machine

/-! ### Loads of I (R191, R193) -/

/-- Settles O41: each load is one write of I, of `addrOf nnn` and of the glyph's address. -/
theorem pointerLoads : Obligations.PointerLoads := by
  unfold Obligations.PointerLoads
  intro nnn x s
  exact ⟨rfl, wordAXKK_append _ _ _, ⟨_, rfl, addrOf_toNat nnn, rfl⟩, ⟨_, rfl, glyphAddr_toNat (s.reg x), rfl⟩⟩

/-! ### Completion where the block is allowed (R55, R57): the converses of `store_next` and `execLoadRegs_next` -/

/-- A store from I on that the parameters allow completes. -/
theorem store_of_mayStore {s : State} {bs : List Byte} (h : s.mayStore bs.length) :
    finish (s.memWrite s.blockBase bs) = .next (s.setMem (s.mem.writeBlock s.blockBase bs)) := by
  obtain ⟨inside, unreserved⟩ := h
  exact finish_next.2 (State.memWrite_ok inside unreserved)

theorem execLdBcd_of_mayStore {s : State} (h : s.mayStore 3) (x : Nibble) :
    exec (.ldBcd x) s = .next (s.setMem (s.mem.writeBlock s.blockBase (bcdDigits (s.reg x)))) :=
  store_of_mayStore h

theorem execStoreRegs_of_mayStore {s : State} {x : Nibble} (h : s.mayStore (x.toNat + 1)) :
    exec (.storeRegs x) s = .next (s.setMem (s.mem.writeBlock s.blockBase (s.regsTo x))) :=
  store_of_mayStore ((s.regsTo_length x).symm ▸ h)

theorem execLoadRegs_of_inside {s : State} {x : Nibble} (h : s.blockBase + (x.toNat + 1) ≤ 0x1000) :
    exec (.loadRegs x) s = .next (s.setRegsFrom (s.mem.readBlock s.blockBase (x.toNat + 1))) := by
  rw [exec, execLoadRegs, State.memRead_ok (.inr h)]

/-! ### Decimal digits (R194) -/

/-- Entry `k` of `bcdDigits` is the decimal digit of weight 10 ^ (2 - k): a byte is below 1000, so its hundreds need no
reduction. -/
theorem bcdDigits_getD_toNat (b : Byte) {k : Nat} (hk : k < 3) :
    ((bcdDigits b).getD k 0#8).toNat = b.toNat / 10 ^ (2 - k) % 10 := by
  have hb := b.isLt
  match k, hk with
  | 0, _ | 1, _ | 2, _ => simp [bcdDigits]; omega

/-- The byte LD B, Vx leaves at I + k is digit k of V[x], hundreds first. -/
theorem read_of_ldBcd {x : Nibble} {s t : State} {k : Nat} (hm : s.mem.wf) (h : exec (.ldBcd x) s = .next t)
    (hk : k < 3) : (t.mem.read (s.blockBase + k)).toNat = (s.reg x).toNat / 10 ^ (2 - k) % 10 := by
  obtain ⟨hb, -, rfl⟩ := execLdBcd_next h
  rw [← bcdDigits_length (s.reg x)] at hb
  rw [State.setMem_mem, Memory.read_writeBlock hm hb, if_pos (by rw [bcdDigits_length]; omega),
    Nat.add_sub_cancel_left, bcdDigits_getD_toNat _ hk]

/-- The three bytes LD B, Vx leaves, written out. -/
theorem digits_of_ldBcd {x : Nibble} {s t : State} (hm : s.mem.wf) (h : exec (.ldBcd x) s = .next t) :
    (t.mem.read s.blockBase).toNat = (s.reg x).toNat / 100 % 10 ∧
    (t.mem.read (s.blockBase + 1)).toNat = (s.reg x).toNat / 10 % 10 ∧
    (t.mem.read (s.blockBase + 2)).toNat = (s.reg x).toNat % 10 :=
  ⟨read_of_ldBcd (k := 0) hm h (by decide), read_of_ldBcd (k := 1) hm h (by decide),
    by simpa using read_of_ldBcd (k := 2) hm h (by decide)⟩

/-- Settles O43: the three bytes are the digits of a number below 256; every other byte is outside the block. -/
theorem bcdStoresTheDigits : Obligations.BcdStoresTheDigits := by
  unfold Obligations.BcdStoresTheDigits
  intro x s hm hs
  have he := execLdBcd_of_mayStore hs x
  obtain ⟨hundreds, tens, ones⟩ := digits_of_ldBcd hm he
  have hx := (s.reg x).isLt
  exact ⟨_, he, by omega, by omega, by omega, by omega,
    fun a ha => (exec_writesOnly he).mem.read_outside hm ha, rfl⟩

/-! ### Register dumps and loads (R195, R196) -/

/-- Settles O44: V0..Vx lie in the stored block, byte by byte, and every other byte is outside it. -/
theorem registerDumpStoresTheRegisters : Obligations.RegisterDumpStoresTheRegisters := by
  unfold Obligations.RegisterDumpStoresTheRegisters
  intro x s hm hs
  have he := execStoreRegs_of_mayStore hs
  exact ⟨_, he, fun k hk => read_of_storeRegs hm he hk,
    fun a ha => (exec_writesOnly he).mem.read_outside hm ha, rfl⟩

/-- The register LD Vx, [I] leaves in V[k] is the byte at I + k, for every k up to x (R196). -/
theorem reg_of_loadRegs {x k : Nibble} {s t : State} (h : exec (.loadRegs x) s = .next t) (hk : k.toNat ≤ x.toNat) :
    t.reg k = s.mem.read (s.blockBase + k.toNat) := by
  obtain ⟨-, rfl⟩ := execLoadRegs_next h
  rw [State.reg_setRegsFrom, Memory.readBlock_getD _ _ (by omega)]

/-- Settles O45: the registers up to x take the block's bytes, those above are none that FX65 may write. -/
theorem registerLoadReadsTheBytes : Obligations.RegisterLoadReadsTheBytes := by
  unfold Obligations.RegisterLoadReadsTheBytes
  intro x s hs
  have he := execLoadRegs_of_inside (Nat.succ_le_succ hs)
  exact ⟨_, he, fun k hk => reg_of_loadRegs he hk,
    fun k hk => (exec_writesOnly he).reg k (mt mem_writesRegs_loadRegs.1 hk.not_ge), rfl⟩

/-- Settles O46: the dump keeps I, so the load reads each V[k] at the address it was stored to. -/
theorem dumpThenLoadRestoresTheRegisters : Obligations.DumpThenLoadRestoresTheRegisters := by
  unfold Obligations.DumpThenLoadRestoresTheRegisters
  intro x s v hm hs
  obtain ⟨t, hdump⟩ : ∃ t, exec (.storeRegs x) s = .next t := ⟨_, execStoreRegs_of_mayStore hs⟩
  have hbase : t.blockBase = s.blockBase := congrArg BitVec.toNat ((exec_writesOnly hdump).part .i List.not_mem_nil)
  have inside : t.blockBase + (x.toNat + 1) ≤ 0x1000 := hbase ▸ hs.1
  have hload := execLoadRegs_of_inside (s := { t with v := v }) inside
  refine ⟨t, _, hdump, hload, fun k hk => ?_⟩
  have stored : t.mem.read (t.blockBase + k.toNat) = s.reg k := by
    rw [hbase, read_of_storeRegs hm hdump hk]
  exact (reg_of_loadRegs hload hk).trans stored

end Sys2Proof.Machine

/-! ### The exception family (spec/60_exceptions.md): when each fault is raised, and that it is precise and permanent -/

namespace Sys2Proof.Machine

/-! ### Causes and ports (R211, R220) -/

/-- Settles O15: the two port functions, read off constructor by constructor. -/
theorem faultCausesAreAsTabled : Obligations.FaultCausesAreAsTabled := by
  unfold Obligations.FaultCausesAreAsTabled
  simp only [Fault.cause, Fault.info, and_self, implies_true]

/-- Settles O13: the transaction of a faulting step moves on to the next inputs and nothing else. -/
theorem faultLeavesTheStateUntouched : Obligations.FaultLeavesTheStateUntouched := by
  unfold Obligations.FaultLeavesTheStateUntouched
  intro s f h
  rw [transact_fault h]
  exact ⟨rfl, rfl, rfl, rfl, rfl, rfl, rfl, rfl, rfl⟩

/-! ### Illegal words (R213) -/

/-- A decode failure ends the step with the fetched word. -/
theorem step_of_decode_error {s : State} {w : Word} {e : DecodeError} (hf : s.fetch = .ok w)
    (hd : decode s.params w = .error e) : step s = .fault (.unknownOpcode w) := by
  simp only [step, hf, hd, raise]

/-- Settles O9: the fetch answers the word at pc, and the decoder rejects it. -/
theorem illegalWordFaultsWithTheWord : Obligations.IllegalWordFaultsWithTheWord := by
  unfold Obligations.IllegalWordFaultsWithTheWord
  intro s e hp hd
  exact step_of_decode_error (State.fetch_ok hp) hd

/-! ### CALL (R216) -/

theorem execCall_of_full {s : State} (h : s.params.stackDepth = some s.stack.length) (nnn : Addr) :
    exec (.call nnn) s = .fault (.stackOverflow s.fetchAddr) := by
  rw [exec, execCall, if_pos (State.stackFull_iff.2 h), raise]

/-- Settles O22: the two outcomes of CALL, with room and without. -/
theorem callPushesTheReturnAddress : Obligations.CallPushesTheReturnAddress := by
  unfold Obligations.CallPushesTheReturnAddress
  intro nnn s
  exact ⟨fun room => ⟨_, execCall_of_room room nnn, addrOf_toNat nnn, rfl, rfl⟩,
    fun full => execCall_of_full full nnn⟩

/-! ### ADD I, Vx (R217) -/

section PointerAdd
variable {s : State} {x : Nibble}

theorem execAddI_of_fits (h : s.i.toNat + (s.reg x).toNat ≤ 0xFFFF) :
    exec (.addI x) s = .next (s.setI (BitVec.ofNat 16 (s.i.toNat + (s.reg x).toNat))) := by
  rw [exec, execAddI, if_neg h.not_gt]

theorem execAddI_of_overflow (h : 0xFFFF < s.i.toNat + (s.reg x).toNat) :
    exec (.addI x) s = .fault (.pointerOverflow s.i) := by
  rw [exec, execAddI, if_pos h, raise]

end PointerAdd

/-- Settles O42: a sum that fits 16 bits is the new I unreduced; any other raises. -/
theorem pointerAddFaultsInsteadOfWrapping : Obligations.PointerAddFaultsInsteadOfWrapping := by
  unfold Obligations.PointerAddFaultsInsteadOfWrapping
  intro x s
  refine ⟨wordAXKK_append _ _ _, fun fits => ⟨_, execAddI_of_fits fits, ?_, rfl⟩, execAddI_of_overflow⟩
  rw [State.setI_i, BitVec.toNat_ofNat, Nat.mod_eq_of_lt (Nat.lt_succ_of_le fits)]

/-! ### Blocks past 0xFFF (R214) and below 0x200 (R218) -/

section Blocks
variable {s : State}

theorem execDrw_of_outside {n : Nibble} (hn : 1 ≤ n.toNat) (h : 0xFFF < s.i.toNat + n.toNat - 1) (x y : Nibble) :
    exec (.drw x y n) s = .fault (.memOutOfRange (BitVec.ofNat 16 (max s.i.toNat 0x1000))) := by
  have past : 0x1000 < s.blockBase + n.toNat := by
    rw [State.blockBase]
    omega
  rw [exec, execDrw, State.memRead_fault (Nat.ne_of_gt hn) past]
  rfl

theorem execLoadRegs_of_outside {x : Nibble} (h : 0xFFF < s.i.toNat + x.toNat) :
    exec (.loadRegs x) s = .fault (.memOutOfRange (BitVec.ofNat 16 (max s.i.toNat 0x1000))) := by
  have past : 0x1000 < s.blockBase + (x.toNat + 1) := Nat.succ_lt_succ h
  rw [exec, execLoadRegs, State.memRead_fault x.toNat.succ_ne_zero past]
  rfl

variable {bs : List Byte} {k : Nat}

/-- A store whose last byte, number `k`, lies past 0xFFF. -/
theorem store_of_outside (hk : bs.length = k + 1) (h : 0xFFF < s.i.toNat + k) :
    finish (s.memWrite s.blockBase bs) = .fault (.memOutOfRange (BitVec.ofNat 16 (max s.i.toNat 0x1000))) := by
  have past : 0x1000 < s.blockBase + bs.length := hk ▸ Nat.succ_lt_succ h
  exact finish_fault.2 (State.memWrite_outside (List.ne_nil_of_length_eq_add_one hk) past)

/-- A store from below 0x200 on that ends inside memory, where the parameters reserve that region. -/
theorem store_of_reserved (hk : bs.length = k + 1) (inside : s.i.toNat + k ≤ 0xFFF)
    (hr : s.params.reservedWrite = .fault) (h : s.i.toNat < 0x200) :
    finish (s.memWrite s.blockBase bs) = .fault (.reservedWrite s.i) := by
  have fits : s.blockBase + bs.length ≤ 0x1000 := hk ▸ Nat.succ_le_succ inside
  rw [finish_fault, State.memWrite_reserved (List.ne_nil_of_length_eq_add_one hk) fits h hr, State.blockBase,
    BitVec.ofNat_toNat, BitVec.setWidth_eq]

/-- Everything a store of `k + 1` bytes at I can do. -/
theorem store_cases (hk : bs.length = k + 1) :
    (∃ t, finish (s.memWrite s.blockBase bs) = .next t) ∨
    (finish (s.memWrite s.blockBase bs) = .fault (.memOutOfRange (BitVec.ofNat 16 (max s.i.toNat 0x1000))) ∧
      0xFFF < s.i.toNat + k) ∨
    (finish (s.memWrite s.blockBase bs) = .fault (.reservedWrite s.i) ∧
      s.params.reservedWrite = .fault ∧ s.i.toNat < 0x200) := by
  by_cases past : 0xFFF < s.i.toNat + k
  · exact .inr (.inl ⟨store_of_outside hk past, past⟩)
  · by_cases allowed : s.params.reservedWrite = .write ∨ 0x200 ≤ s.i.toNat
    · exact .inl ⟨_, store_of_mayStore ⟨by omega, allowed⟩⟩
    · obtain ⟨hw, low⟩ := not_or.1 allowed
      have hr : s.params.reservedWrite = .fault := by
        cases h : s.params.reservedWrite with
        | fault => rfl
        | write => exact absurd h hw
      exact .inr (.inr ⟨store_of_reserved hk (by omega) hr (by omega), hr, by omega⟩)

/-- Under P_RESERVED_WRITE = WRITE no store raises ReservedWrite. -/
theorem store_ne_reservedWrite (hk : bs.length = k + 1) (hw : s.params.reservedWrite = .write) (a : Word) :
    finish (s.memWrite s.blockBase bs) ≠ .fault (.reservedWrite a) := by
  intro hf
  rcases store_cases (s := s) hk with ⟨t, h⟩ | ⟨h, -⟩ | ⟨-, hr, -⟩
  · cases hf.symm.trans h
  · cases hf.symm.trans h
  · cases hw.symm.trans hr

end Blocks

/-- Settles O17: the fetch, the two block reads and the two stores, each past the end. -/
theorem blockPastTheEndFaults : Obligations.BlockPastTheEndFaults := by
  unfold Obligations.BlockPastTheEndFaults
  intro s x y n
  exact ⟨fun h => step_of_fetch_error (State.fetch_last h), fun hn h => execDrw_of_outside hn h x y,
    fun h => store_of_outside (bcdDigits_length _) h,
    fun h => ⟨store_of_outside (s.regsTo_length x) h, execLoadRegs_of_outside h⟩⟩

/-- Settles O18: a block of at most 16 bytes from below 0x200 ends inside memory, so only the parameter decides. -/
theorem reservedStoreFaultsOnlyWhenAsked : Obligations.ReservedStoreFaultsOnlyWhenAsked := by
  unfold Obligations.ReservedStoreFaultsOnlyWhenAsked
  intro s x
  have hx := x.isLt
  constructor
  · intro hr low
    exact ⟨store_of_reserved (bcdDigits_length _) (by omega) hr low,
      store_of_reserved (s.regsTo_length x) (by omega) hr low⟩
  · intro hw a
    exact ⟨store_ne_reservedWrite (bcdDigits_length _) hw a, store_ne_reservedWrite (s.regsTo_length x) hw a⟩

/-! ### No other fault (R211, R221) -/

/-- Settles O16: the seven instructions that can fault split on their condition; every other one is a next state by
definition. -/
theorem onlyTheNamedFaultsAreRaised : Obligations.OnlyTheNamedFaultsAreRaised := by
  unfold Obligations.OnlyTheNamedFaultsAreRaised
  intro i s
  cases i with
  | ret =>
    cases hs : s.stack with
    | nil => exact .inr ⟨execRet_of_nil hs, rfl⟩
    | cons top rest => exact .inl ⟨_, execRet_of_cons hs⟩
  | call nnn =>
    by_cases full : s.params.stackDepth = some s.stack.length
    · exact .inr ⟨execCall_of_full full nnn, full⟩
    · exact .inl ⟨_, execCall_of_room full nnn⟩
  | addI x =>
    by_cases wraps : 0xFFFF < s.i.toNat + (s.reg x).toNat
    · exact .inr ⟨execAddI_of_overflow wraps, wraps⟩
    · exact .inl ⟨_, execAddI_of_fits (not_lt.1 wraps)⟩
  | drw x y n =>
    by_cases past : 1 ≤ n.toNat ∧ 0xFFF < s.i.toNat + n.toNat - 1
    · obtain ⟨rows, outside⟩ := past
      exact .inr ⟨execDrw_of_outside rows outside x y, rows, outside⟩
    · have inside : n = 0#4 ∨ s.i.toNat + n.toNat ≤ 0x1000 := by
        rw [← BitVec.toNat_inj, BitVec.toNat_ofNat]
        omega
      exact .inl ⟨_, execDrw_of_inside inside x y⟩
  | loadRegs x =>
    by_cases past : 0xFFF < s.i.toNat + x.toNat
    · exact .inr ⟨execLoadRegs_of_outside past, past⟩
    · exact .inl ⟨_, execLoadRegs_of_inside (Nat.succ_le_succ (not_lt.1 past))⟩
  | ldBcd x => exact store_cases (bcdDigits_length _)
  | storeRegs x => exact store_cases (s.regsTo_length x)
  | _ => exact .inl ⟨_, rfl⟩

/-! ### A fault repeats (R223) -/

section Repeats
variable {s : State} {f : Fault} (inputs : List Input) (tick : Nat)

/-- The four instructions that read the inputs complete under any, and no other can tell inputs apart. -/
theorem exec_fault_withInputs {i : Instr} (h : exec i s = .fault f) :
    exec i (s.withInputs inputs tick) = .fault f := by
  have same := onlyInputInstructionsReadTheInputs i s inputs tick
  rw [h] at same
  cases i with
  | skp | sknp | ldKey | rnd => cases h
  | _ => exact same trivial

/-- The fetch, the decoder and the instruction each raise under any inputs what they raise under one. -/
theorem step_fault_withInputs (h : step s = .fault f) : step (s.withInputs inputs tick) = .fault f := by
  rcases step_fault h with hf | ⟨w, e, hf, hd, rfl⟩ | ⟨w, i, hf, hd, he⟩
  · exact step_of_fetch_error (s := s.withInputs inputs tick) hf
  · exact step_of_decode_error (s := s.withInputs inputs tick) hf hd
  · rw [step_of_decode (s := s.withInputs inputs tick) hf hd, commit_fault]
    exact exec_fault_withInputs inputs tick he

end Repeats

/-- Settles O14: after a fault the transaction leaves the same state with other inputs. -/
theorem faultRepeatsWhateverTheInputs : Obligations.FaultRepeatsWhateverTheInputs := by
  unfold Obligations.FaultRepeatsWhateverTheInputs
  intro s f h
  refine ⟨fun inputs tick => step_fault_withInputs inputs tick h, ?_⟩
  rw [transact_fault h]
  exact step_fault_withInputs s.inputs.tail (s.tick + 1) h

end Sys2Proof.Machine

/-! ### The reset family (spec/70_reset_and_hazards.md): construction, the reset state, and the end of a run -/

namespace Sys2Proof.Machine

/-! ### What construction puts at each address (R241) -/

section ConstructedBytes
variable (b : Boot) (image : List Byte) {a : Nat}

theorem Boot.byteAt_font (h : a < 80) : b.byteAt image a = b.font[a] := dif_pos h

theorem Boot.byteAt_image {k : Nat} (h : k < image.length) : b.byteAt image (0x200 + k) = image[k] := by
  have above_font : ¬ 0x200 + k < Config.fontSize := by simp only [Config.fontSize]; omega
  have in_image : Config.programStart ≤ 0x200 + k ∧ 0x200 + k < Config.programStart + image.length := by
    simp only [Config.programStart]; omega
  rw [Boot.byteAt, dif_neg above_font, if_pos in_image, Nat.add_sub_cancel_left, List.getD_eq_getElem _ _ h]

theorem Boot.byteAt_fill (h : 80 ≤ a) (outside : a < 0x200 ∨ 0x200 + image.length ≤ a) :
    b.byteAt image a = b.memFill a := by
  have off_image : ¬ (Config.programStart ≤ a ∧ a < Config.programStart + image.length) := by
    simp only [Config.programStart]; omega
  rw [Boot.byteAt, dif_neg (Nat.not_lt.2 h), if_neg off_image]

/-- The fill and the font of `Boot.zeros` are what an unlisted address reads as. -/
theorem Boot.byteAt_zeros_nil (a : Nat) : Boot.zeros.byteAt [] a = Memory.unlisted a := by
  by_cases h : a < 80
  · rw [Boot.byteAt_font _ _ h]
    exact Vector.getElem_ofFn h
  · have past_font : Config.font.length ≤ a := Nat.not_lt.1 h
    rw [Boot.byteAt_fill _ _ past_font (by simp only [List.length_nil]; omega), Memory.unlisted,
      List.getD_eq_default _ _ past_font]
    rfl

end ConstructedBytes

/-! ### The constructed machine (R242, R243) -/

section Constructed
variable {p : Params} {b : Boot} {image : List Byte} {s : State}

theorem construct_mem (h : construct p b image = some s) : s.mem = Memory.ofBytes (b.byteAt image) := by
  by_cases fits : image.length ≤ Config.maxImage
  · rw [construct, if_pos fits, Option.some.injEq] at h
    rw [← h]
  · rw [construct, if_neg fits] at h
    cases h

theorem construct_mem_wf (h : construct p b image = some s) : s.mem.wf := by
  rw [construct_mem h]
  exact Memory.ofBytes_wf _

theorem construct_read (h : construct p b image = some s) {a : Nat} (ha : a < 0x1000) :
    s.mem.read a = b.byteAt image a := by
  rw [construct_mem h, Memory.read_ofBytes _ ha]

end Constructed

/-- Settles O54: memory holds `Boot.byteAt`, whose three branches are R241's three ranges; every other clause is a
field of the constructed state. -/
theorem constructionPlacesFontImageAndFill : Obligations.ConstructionPlacesFontImageAndFill := by
  unfold Obligations.ConstructionPlacesFontImageAndFill
  intro p b image
  refine ⟨fun fits => ?_, fun long => if_neg (Nat.not_le.2 long)⟩
  have made : construct p b image = some _ := if_pos fits
  refine ⟨_, made, rfl, rfl, rfl, rfl, rfl, rfl, rfl, rfl, construct_mem_wf made, ?_, ?_, ?_⟩
  · exact fun a ha => (construct_read made (by omega)).trans (b.byteAt_font image ha)
  · exact fun k hk => (construct_read made (by omega)).trans (b.byteAt_image image hk)
  · exact fun a ha inside outside => (construct_read made inside).trans (b.byteAt_fill image ha outside)

/-! ### The reset state -/

/-- Settles O51: nothing is listed in memory and nothing is on the stack, whose depth is unbounded. -/
theorem resetMeetsTheInvariant : Obligations.ResetMeetsTheInvariant := by
  unfold Obligations.ResetMeetsTheInvariant
  have pc_bound : State.reset.pc.toNat ≤ 0x10FE := by decide
  have no_entries : ∀ e ∈ State.reset.stack, e.toNat ≤ 0x1000 := List.forall_mem_nil _
  exact ⟨Memory.reset_wf, pc_bound, no_entries, trivial⟩

/-- Settles O53: the fields as `State.reset` gives them, and the font bytes an empty memory reads as. -/
theorem resetIsAsTheSpecGives : Obligations.ResetIsAsTheSpecGives := by
  unfold Obligations.ResetIsAsTheSpecGives
  exact ⟨rfl, rfl, by decide, by decide⟩

/-- Settles O55: the constructed memory lists nothing, as every byte is what its unlisted address reads as. -/
theorem resetIsConstructionWithZeros : Obligations.ResetIsConstructionWithZeros := by
  unfold Obligations.ResetIsConstructionWithZeros
  have empty_mem : Memory.ofBytes (Boot.zeros.byteAt []) = [] := Memory.ofBytes_unlisted Boot.byteAt_zeros_nil
  have fits : ([] : List Byte).length ≤ Config.maxImage := Nat.zero_le _
  rw [construct, if_pos fits, empty_mem]
  rfl

/-! ### The end of a run (R251) -/

/-- Whether a run ends at L shows in pc and memory alone. -/
theorem State.endsAt_congr {s t : State} (hpc : t.pc = s.pc) (hmem : t.mem = s.mem) (l : Addr) :
    t.endsAt l ↔ s.endsAt l := by
  simp only [State.endsAt, State.wordAt, hpc, hmem]

/-- A step of the jump to itself advances and puts pc back. -/
theorem step_of_endsAt {s : State} {l : Addr} (h : s.endsAt l) : step s = .next (s.advance.setPc s.pc).nextInput := by
  obtain ⟨hpc, hp, hw⟩ := h
  have jump : exec (.jp l) s.advance = .next (s.advance.setPc s.pc) := by rw [hpc]; rfl
  exact step_of_wordAt (i := .jp l) hp hw rfl jump

/-- Settles O56: pc and memory are as before, so the word at pc is still the jump to itself. -/
theorem endedRunOnlyCountsTimers : Obligations.EndedRunOnlyCountsTimers := by
  unfold Obligations.EndedRunOnlyCountsTimers
  intro s l h
  refine ⟨_, step_of_endsAt h, (State.endsAt_congr rfl rfl l).2 h, countDown_toNat s.dt, countDown_toNat s.st, ?_⟩
  simp

end Sys2Proof.Machine
